-- ==== Sys2Proof/Word.lean ====
section
/-! DEFINITION. The words of the core: bytes, 16-bit words, 12-bit addresses and register numbers (10_state.md R20, R22,
R24; 30_encoding.md R60, R61). All values are unsigned (00_scope.md R9). -/

namespace Sys2Proof

/-- A value of a general register, a timer or a RAM byte. -/
abbrev Byte := BitVec 8

/-- An instruction word, and a value of `PC`, of `I` or of a stack slot. -/
abbrev Word := BitVec 16

/-- The 12-bit address field `nnn` of an instruction word (R61). -/
abbrev Addr := BitVec 12

/-- A general register number, `x` or `y` (R20, R61). -/
abbrev Reg := Fin 16

end Sys2Proof
end

