-- ==== Sys2Proof/Syntax.lean ====
section
/-! DEFINITION. The instructions of the core: one constructor per row of opcode_table.json (00_scope.md R3), with the
operands 30_encoding.md R63 gives each format. -/

namespace Sys2Proof

/-- The 22 instructions (R3, R65). A register field is a register number, an immediate field the bits of the word that
hold it; the row count `n` of `Dxyn` is a number, at most 15 in a well-formed instruction (R62). -/
inductive Instr where
  /-- `0000`, R81. -/
  | nop
  /-- `00E0`, R140. -/
  | cls
  /-- `00EE`, R82. -/
  | ret
  /-- `1nnn`, R83. -/
  | jp (nnn : Addr)
  /-- `2nnn`, R84. -/
  | call (nnn : Addr)
  /-- `3xkk`, R85. -/
  | seImm (x : Reg) (kk : Byte)
  /-- `4xkk`, R86. -/
  | sneImm (x : Reg) (kk : Byte)
  /-- `5xy0`, R87. -/
  | seReg (x y : Reg)
  /-- `6xkk`, R101. -/
  | ldImm (x : Reg) (kk : Byte)
  /-- `7xkk`, R102. -/
  | addImm (x : Reg) (kk : Byte)
  /-- `8xy0`, R103. -/
  | ldReg (x y : Reg)
  /-- `8xy1`, R104. -/
  | or (x y : Reg)
  /-- `8xy2`, R105. -/
  | and (x y : Reg)
  /-- `8xy3`, R106. -/
  | xor (x y : Reg)
  /-- `8xy4`, R107. -/
  | addReg (x y : Reg)
  /-- `8xy5`, R108. -/
  | sub (x y : Reg)
  /-- `Annn`, R120. -/
  | ldI (nnn : Addr)
  /-- `Dxyn`, R141. -/
  | drw (x y : Reg) (n : Nat)
  /-- `Fx1E`, R121. -/
  | addI (x : Reg)
  /-- `Fx29`, R122. -/
  | ldF (x : Reg)
  /-- `Fx55`, R123. -/
  | ldStore (x : Reg)
  /-- `Fx65`, R124. -/
  | ldLoad (x : Reg)
  deriving DecidableEq, Repr

end Sys2Proof
end

