-- ==== Sys2Proof/WellFormed.lean ====
section
/-! DEFINITION. Which terms of Instr are instructions of the hardware. Register numbers and immediates are in range by
their types; the one field that a term can put out of range is the row count of `Dxyn`. -/

namespace Sys2Proof

/-- The row count fits its 4 bits: "bounded by 4 bits, so ≤15" (30_encoding.md R62). -/
def rowCountOk (n : Nat) : Bool := decide (n ≤ 15)

/-- The instruction has an encoding (R62, R63). -/
def Instr.wellFormed : Instr → Bool
  | .nop => true
  | .cls => true
  | .ret => true
  | .jp _ => true
  | .call _ => true
  | .seImm _ _ => true
  | .sneImm _ _ => true
  | .seReg _ _ => true
  | .ldImm _ _ => true
  | .addImm _ _ => true
  | .ldReg _ _ => true
  | .or _ _ => true
  | .and _ _ => true
  | .xor _ _ => true
  | .addReg _ _ => true
  | .sub _ _ => true
  | .ldI _ => true
  | .drw _ _ n => rowCountOk n
  | .addI _ => true
  | .ldF _ => true
  | .ldStore _ => true
  | .ldLoad _ => true

end Sys2Proof
end

