-- ==== Sys2Proof/Decode.lean ====
section
/-! DEFINITION. The fields of an instruction word (30_encoding.md R61), the decoder (R65), the encoder (R63), and the rows
of the opcode table as masks and patterns (opcode_table.json). -/

namespace Sys2Proof

/-! ### Fields of a word (R61) -/

/-- `d1` = w[15:12], the major opcode. -/
def d1 (w : Word) : BitVec 4 := w.extractLsb' 12 4

/-- `x` = w[11:8], the first register number. -/
def fieldX (w : Word) : Reg := (w.extractLsb' 8 4).toFin

/-- `y` = w[7:4], the second register number. -/
def fieldY (w : Word) : Reg := (w.extractLsb' 4 4).toFin

/-- `d4` = w[3:0], the minor opcode of groups 5 and 8, and the row count of `Dxyn`. -/
def d4 (w : Word) : BitVec 4 := w.extractLsb' 0 4

/-- `kk` = w[7:0], an immediate byte, and the minor opcode of group F. -/
def fieldKK (w : Word) : Byte := w.extractLsb' 0 8

/-- `nnn` = w[11:0], an address. -/
def fieldNNN (w : Word) : Addr := w.extractLsb' 0 12

/-! ### The decoder (R65) -/

/-- Group 0: three whole words (R65, R68). -/
def decode0 (w : Word) : Option Instr :=
  if w = 0x0000 then some .nop
  else if w = 0x00E0 then some .cls
  else if w = 0x00EE then some .ret
  else none

/-- Group 5: `d4` is 0 (R65, R68). -/
def decode5 (w : Word) : Option Instr :=
  if d4 w = 0 then some (.seReg (fieldX w) (fieldY w)) else none

/-- Group 8: `d4` selects the operation; 6..15 are unsupported (R65). -/
def decode8 (w : Word) : Option Instr :=
  match (d4 w).toNat with
  | 0 => some (.ldReg (fieldX w) (fieldY w))
  | 1 => some (.or (fieldX w) (fieldY w))
  | 2 => some (.and (fieldX w) (fieldY w))
  | 3 => some (.xor (fieldX w) (fieldY w))
  | 4 => some (.addReg (fieldX w) (fieldY w))
  | 5 => some (.sub (fieldX w) (fieldY w))
  | _ => none

/-- Group F: `kk` selects the operation (R65, R68). -/
def decodeF (w : Word) : Option Instr :=
  if fieldKK w = 0x1E then some (.addI (fieldX w))
  else if fieldKK w = 0x29 then some (.ldF (fieldX w))
  else if fieldKK w = 0x55 then some (.ldStore (fieldX w))
  else if fieldKK w = 0x65 then some (.ldLoad (fieldX w))
  else none

/-- The instruction a word stands for; `none` where the word is an unsupported opcode (R65, R66). -/
def decode (w : Word) : Option Instr :=
  match (d1 w).toNat with
  | 0x0 => decode0 w
  | 0x1 => some (.jp (fieldNNN w))
  | 0x2 => some (.call (fieldNNN w))
  | 0x3 => some (.seImm (fieldX w) (fieldKK w))
  | 0x4 => some (.sneImm (fieldX w) (fieldKK w))
  | 0x5 => decode5 w
  | 0x6 => some (.ldImm (fieldX w) (fieldKK w))
  | 0x7 => some (.addImm (fieldX w) (fieldKK w))
  | 0x8 => decode8 w
  | 0xA => some (.ldI (fieldNNN w))
  | 0xD => some (.drw (fieldX w) (fieldY w) (d4 w).toNat)
  | 0xF => decodeF w
  | _ => none

/-- What the decoder finds at the head of a list of bytes. -/
inductive Decoded where
  /-- An instruction, and the bytes after it. -/
  | instr (i : Instr) (rest : List Byte)
  /-- An unsupported opcode, with its raw word (R66). -/
  | unsupported (w : Word)
  /-- Fewer than two bytes: no instruction word (R60). -/
  | truncated
  deriving DecidableEq, Repr

/-- A big-endian word: the byte at the lower address is bits 15:8 (20_memory.md R48). -/
def wordOfBytes (hi lo : Byte) : Word := hi ++ lo

/-- The decoder on any bytes: every instruction is one big-endian word (R60). -/
def decodeBytes : List Byte → Decoded
  | hi :: lo :: rest =>
    match decode (wordOfBytes hi lo) with
    | some i => .instr i rest
    | none => .unsupported (wordOfBytes hi lo)
  | _ => .truncated

/-! ### The encoder: one layout per format of R63 -/

/-- Format `NNN`: `oooo nnnnnnnnnnnn`. -/
def wordNNN (op : Nat) (nnn : Addr) : Word := BitVec.ofNat 16 (op * 0x1000 + nnn.toNat)

/-- Format `XKK`: `oooo xxxx kkkkkkkk`. -/
def wordXKK (op : Nat) (x : Reg) (kk : Byte) : Word := BitVec.ofNat 16 (op * 0x1000 + x.val * 0x100 + kk.toNat)

/-- Formats `XY` (`oooo xxxx yyyy oooo`) and `XYN` (`oooo xxxx yyyy nnnn`); `d` is the lowest nibble. -/
def wordXYN (op : Nat) (x y : Reg) (d : Nat) : Word :=
  BitVec.ofNat 16 (op * 0x1000 + x.val * 0x100 + y.val * 0x10 + d)

/-- Format `X`: `oooo xxxx oooooooo`. -/
def wordX (op : Nat) (x : Reg) (low : Nat) : Word := BitVec.ofNat 16 (op * 0x1000 + x.val * 0x100 + low)

/-- The word of a well-formed instruction (R63, R65). -/
def encode : Instr → Word
  | .nop => 0x0000
  | .cls => 0x00E0
  | .ret => 0x00EE
  | .jp nnn => wordNNN 0x1 nnn
  | .call nnn => wordNNN 0x2 nnn
  | .seImm x kk => wordXKK 0x3 x kk
  | .sneImm x kk => wordXKK 0x4 x kk
  | .seReg x y => wordXYN 0x5 x y 0
  | .ldImm x kk => wordXKK 0x6 x kk
  | .addImm x kk => wordXKK 0x7 x kk
  | .ldReg x y => wordXYN 0x8 x y 0
  | .or x y => wordXYN 0x8 x y 1
  | .and x y => wordXYN 0x8 x y 2
  | .xor x y => wordXYN 0x8 x y 3
  | .addReg x y => wordXYN 0x8 x y 4
  | .sub x y => wordXYN 0x8 x y 5
  | .ldI nnn => wordNNN 0xA nnn
  | .drw x y n => wordXYN 0xD x y n
  | .addI x => wordX 0xF x 0x1E
  | .ldF x => wordX 0xF x 0x29
  | .ldStore x => wordX 0xF x 0x55
  | .ldLoad x => wordX 0xF x 0x65

/-- The two bytes of a well-formed instruction as RAM holds them, the lower address first (20_memory.md R48). -/
def encodeBytes (i : Instr) : List Byte := [(encode i).extractLsb' 8 8, (encode i).extractLsb' 0 8]

/-! ### The opcode table (opcode_table.json) -/

/-- The formats of R63. -/
inductive Format where
  | fixed | nnn | xkk | xy | xyn | x
  deriving DecidableEq, Repr

/-- A row of the opcode table: a word belongs to it when the bits of `mask` read `pattern`. -/
structure Row where
  mnemonic : String
  text : String
  format : Format
  pattern : Word
  mask : Word
  deriving DecidableEq, Repr

/-- The word belongs to the row. -/
def Row.holds (r : Row) (w : Word) : Bool := decide (w &&& r.mask = r.pattern)

/-- The row of an instruction: its mnemonic and assembler text (R65, R69), format, pattern and mask. -/
def rowOf : Instr → Row
  | .nop => ⟨"NOP", "NOP", .fixed, 0x0000, 0xFFFF⟩
  | .cls => ⟨"CLS", "CLS", .fixed, 0x00E0, 0xFFFF⟩
  | .ret => ⟨"RET", "RET", .fixed, 0x00EE, 0xFFFF⟩
  | .jp _ => ⟨"JP", "JP nnn", .nnn, 0x1000, 0xF000⟩
  | .call _ => ⟨"CALL", "CALL nnn", .nnn, 0x2000, 0xF000⟩
  | .seImm _ _ => ⟨"SE_imm", "SE Vx, kk", .xkk, 0x3000, 0xF000⟩
  | .sneImm _ _ => ⟨"SNE_imm", "SNE Vx, kk", .xkk, 0x4000, 0xF000⟩
  | .seReg _ _ => ⟨"SE_reg", "SE Vx, Vy", .xy, 0x5000, 0xF00F⟩
  | .ldImm _ _ => ⟨"LD_imm", "LD Vx, kk", .xkk, 0x6000, 0xF000⟩
  | .addImm _ _ => ⟨"ADD_imm", "ADD Vx, kk", .xkk, 0x7000, 0xF000⟩
  | .ldReg _ _ => ⟨"LD_reg", "LD Vx, Vy", .xy, 0x8000, 0xF00F⟩
  | .or _ _ => ⟨"OR", "OR Vx, Vy", .xy, 0x8001, 0xF00F⟩
  | .and _ _ => ⟨"AND", "AND Vx, Vy", .xy, 0x8002, 0xF00F⟩
  | .xor _ _ => ⟨"XOR", "XOR Vx, Vy", .xy, 0x8003, 0xF00F⟩
  | .addReg _ _ => ⟨"ADD_reg", "ADD Vx, Vy", .xy, 0x8004, 0xF00F⟩
  | .sub _ _ => ⟨"SUB", "SUB Vx, Vy", .xy, 0x8005, 0xF00F⟩
  | .ldI _ => ⟨"LD_I", "LD I, nnn", .nnn, 0xA000, 0xF000⟩
  | .drw _ _ _ => ⟨"DRW", "DRW Vx, Vy, n", .xyn, 0xD000, 0xF000⟩
  | .addI _ => ⟨"ADD_I", "ADD I, Vx", .x, 0xF01E, 0xF0FF⟩
  | .ldF _ => ⟨"LD_F", "LD F, Vx", .x, 0xF029, 0xF0FF⟩
  | .ldStore _ => ⟨"LD_store", "LD [I], Vx", .x, 0xF055, 0xF0FF⟩
  | .ldLoad _ => ⟨"LD_load", "LD Vx, [I]", .x, 0xF065, 0xF0FF⟩

/-- One instruction of each kind, in the table's order. -/
def sampleInstrs : List Instr :=
  [.nop, .cls, .ret, .jp 0, .call 0, .seImm 0 0, .sneImm 0 0, .seReg 0 0, .ldImm 0 0, .addImm 0 0, .ldReg 0 0]
    ++ [.or 0 0, .and 0 0, .xor 0 0, .addReg 0 0, .sub 0 0, .ldI 0, .drw 0 0 0, .addI 0, .ldF 0, .ldStore 0, .ldLoad 0]

/-- The 22 rows of the opcode table, in its order. -/
def opcodeTable : List Row := sampleInstrs.map rowOf

/-! ### The host's reading of a table row's bits -/

/-- The instruction the decoder reads from an instruction of `nbits` bits `w`, numbered as the opcode table numbers them:
the one word is bits 15..0, laid out big-endian for `decodeBytes`. Bits at and above `nbits` are zero. -/
def decodeTableWord (nbits w : Nat) : Option Instr :=
  let word : Word := BitVec.ofNat 16 (w % 2 ^ nbits)
  match decodeBytes [word.extractLsb' 8 8, word.extractLsb' 0 8] with
  | .instr i _ => some i
  | .unsupported _ => none
  | .truncated => none

end Sys2Proof
end

