-- ==== Sys2Proof/Config.lean ====
section
/-! DEFINITION. The parameters 00_scope.md R8 fixes for the core. The two open parameters of R8, `FONT` and `LOAD_SETS_PC`,
stand in Sys2Proof/Machine/Params.lean. -/

namespace Sys2Proof.Config

/-- `MEM_SIZE`: RAM addresses are 0..4095 (R8, R40). -/
@[simp] abbrev memSize : Nat := 4096

/-- `FONT_SIZE`: the font table stands at 0..79 (R8, R41). -/
@[simp] abbrev fontSize : Nat := 80

/-- `GLYPH_BYTES`: the glyph of digit d stands at 5 * d (R8, R42). -/
@[simp] abbrev glyphBytes : Nat := 5

/-- `PROG_BASE`: where `load` writes, and the reset value of `PC` (R8, R41). -/
@[simp] abbrev progBase : Nat := 0x200

/-- `MAX_LOAD`: the most bytes `load` accepts (R8, R156). -/
@[simp] abbrev maxLoad : Nat := 3584

/-- `DISP_W`: pixels in a line of the display (R8, R47). -/
@[simp] abbrev dispWidth : Nat := 64

/-- `DISP_SIZE`: display indices are 0..2047 (R8, R47). -/
@[simp] abbrev dispSize : Nat := 2048

/-- `STACK_DEPTH`: slots of the call stack (R8, R25). -/
@[simp] abbrev stackDepth : Nat := 16

/-- `NKEYS`: key flags (R8, R28). -/
@[simp] abbrev keyCount : Nat := 16

/-- The register that is also the flag register (10_state.md R21). -/
@[simp] abbrev vf : Reg := 15

end Sys2Proof.Config
end

