-- ==== Sys2Proof/Machine/Params.lean ====
section
/-! DEFINITION. The two open parameters of 00_scope.md R8, at the values the spec gives by default. -/

namespace Sys2Proof.Machine

/-- `FONT`: glyphs 0 to 7 of the default table (20_memory.md R42). PRESUMED (notes/assumptions/16.md), unsafe: the spec
takes these bytes from general knowledge, and a proof can read them. -/
def fontLow : List Byte :=
  [0xF0, 0x90, 0x90, 0x90, 0xF0] ++ [0x20, 0x60, 0x20, 0x20, 0x70] ++
  [0xF0, 0x10, 0xF0, 0x80, 0xF0] ++ [0xF0, 0x10, 0xF0, 0x10, 0xF0] ++
  [0x90, 0x90, 0xF0, 0x10, 0x10] ++ [0xF0, 0x80, 0xF0, 0x10, 0xF0] ++
  [0xF0, 0x80, 0xF0, 0x90, 0xF0] ++ [0xF0, 0x10, 0x20, 0x40, 0x40]

/-- `FONT`: glyphs 8 to F of the default table (R42). PRESUMED as `fontLow` is. -/
def fontHigh : List Byte :=
  [0xF0, 0x90, 0xF0, 0x90, 0xF0] ++ [0xF0, 0x90, 0xF0, 0x10, 0xF0] ++
  [0xF0, 0x90, 0xF0, 0x90, 0x90] ++ [0xE0, 0x90, 0xE0, 0x90, 0xE0] ++
  [0xF0, 0x80, 0x80, 0x80, 0xF0] ++ [0xE0, 0x90, 0x90, 0x90, 0xE0] ++
  [0xF0, 0x80, 0xF0, 0x80, 0xF0] ++ [0xF0, 0x80, 0xF0, 0x80, 0x80]

/-- `FONT`, 80 bytes: glyph d is the five bytes from 5 * d (R42). -/
def font : List Byte := fontLow ++ fontHigh

/-- The byte of `FONT` at an address of the font table. -/
def fontByte (a : Nat) : Byte := font.getD a 0

/-- `LOAD_SETS_PC`: whether `load` sets `PC` to 0x200; the spec's value is false (R8, 70_reset_and_hazards.md R182).
UNVERIFIED (notes/assumptions/4.md), unsafe: the source does not say. -/
def loadSetsPc : Bool := false

end Sys2Proof.Machine
end

