-- ==== Sys2Proof/Machine/Memory.lean ====
section
/-! DEFINITION. RAM as plain data: the cells that differ from their reset contents, by rising address (20_memory.md R40,
R41; 10_state.md R29, R33; notes/assumptions/27.md). -/

namespace Sys2Proof.Machine

/-- RAM: the listed cells; every other address reads as `resetByte` says. -/
abbrev Memory := List Host.Cell

/-- What an unlisted address reads as: its reset contents, the font table at 0..79 and zero elsewhere (R33). -/
def resetByte (a : Nat) : Byte := if a < Config.fontSize then fontByte a else 0

/-- The byte at an address. -/
def Memory.read : Memory → Nat → Byte
  | [], a => resetByte a
  | c :: rest, a => if c.1 = a then c.2 else Memory.read rest a

/-- The list with no cell of the address. -/
def Memory.erase (m : Memory) (a : Nat) : Memory := m.filter (fun c => c.1 != a)

/-- Puts a cell before the first one of a higher address. -/
def Memory.insert (a : Nat) (v : Byte) : Memory → Memory
  | [] => [(a, v)]
  | c :: rest => if a < c.1 then (a, v) :: c :: rest else c :: Memory.insert a v rest

/-- Puts a byte at an address, keeping the canonical form: what the address reads as unlisted is not listed. -/
def Memory.write (m : Memory) (a : Nat) (v : Byte) : Memory :=
  if v = resetByte a then m.erase a else Memory.insert a v (m.erase a)

/-- A cell the canonical form may list: inside RAM, and not what its address reads as unlisted. -/
abbrev Memory.cellOk (c : Host.Cell) : Prop := c.1 < Config.memSize ∧ c.2 ≠ resetByte c.1

/-- The canonical form: addresses strictly rising, every cell one that may be listed. -/
abbrev Memory.wf (m : Memory) : Prop := m.Pairwise (fun c d => c.1 < d.1) ∧ ∀ c ∈ m, Memory.cellOk c

end Sys2Proof.Machine
end

