-- ==== Sys2Proof/Machine/State.lean ====
section
/-! DEFINITION. The state of the core (10_state.md), its fault records (60_exceptions.md R150), and the state after reset
(10_state.md R33, 70_reset_and_hazards.md R180). -/

namespace Sys2Proof.Machine

/-- The address space of an out-of-bounds access (R150). -/
inductive Space where
  /-- RAM, addresses 0..4095. -/
  | ram
  /-- The display array, indices 0..2047. -/
  | display
  deriving DecidableEq, Repr

/-- The fault records of R150, latched in `FAULT` and given to the host as the transaction's response (R153). A step from
a state whose latch is set ends in its record (R154): that is the one way a step ends in a fault. Safe: such a step
changes nothing, as R154 says, and the run goes no further. -/
inductive Fault where
  /-- Code 1: the executed word matches no instruction. Raised by `fetchExecute`, after the fetch (R66). -/
  | unsupportedOpcode (w : Word)
  /-- Code 2: RAM at 4096 or above, or a pixel at 2048 or above. Raised by the fetch, `LD_store`, `LD_load`, `DRW` (R44,
  R45, R47) and `load` (R156), with the lowest offending address. -/
  | outOfBounds (space : Space) (addr : Nat)
  /-- Code 3: `CALL` with a full stack (R84). -/
  | stackOverflow (sp : Nat)
  /-- Code 4: `RET` with an empty stack (R82). -/
  | stackUnderflow (sp : Nat)
  /-- Code 5: `ADD_I` whose sum is above 0xFFFF (R121). -/
  | arithmeticOverflow (i : Word) (vx : Byte)
  /-- Code 6: `LD_store` into the font table (R43). -/
  | fontRegionWrite (addr : Nat)
  /-- Code 7: `keypress` with an index of 16 or more (R162). -/
  | keyIndexOutOfRange (index : Nat)
  deriving DecidableEq, Repr

/-- Why a step has no meaning. -/
inductive Refusal where
  /-- An arm of `exec` that has no meaning yet; no arm answers so. Safe: the run stops. -/
  | notModelled (mnemonic : String)
  deriving DecidableEq, Repr

/-- Every element of the state (10_state.md R20 to R31), plain data. -/
structure State where
  /-- `V[0]`..`V[15]` (R20). -/
  regs : Vector Byte 16
  /-- `I` (R24). -/
  index : Word
  /-- `PC` (R22). -/
  pc : Word
  /-- `S[0]`..`S[15]` (R25). -/
  stack : Vector Word 16
  /-- `SP`, 0..16 (R25). -/
  sp : Fin 17
  /-- `DT` (R27). -/
  delay : Byte
  /-- `ST` (R27). -/
  sound : Byte
  /-- `K[0]`..`K[15]` (R28). -/
  keys : Vector Bool 16
  /-- `M[0]`..`M[4095]` (R29). -/
  mem : Memory
  /-- `D[0]`..`D[2047]`, index = y * 64 + x (R29, R47). -/
  display : Vector Bool 2048
  /-- `FAULT` (R31). -/
  fault : Option Fault
  deriving DecidableEq, Repr

/-- The state after `new` or `reset` (R33, R180). RAM lists nothing: each address holds its reset contents. -/
def State.reset : State where
  regs := Vector.replicate 16 0
  index := 0
  pc := 0x200
  stack := Vector.replicate 16 0
  sp := 0
  delay := 0
  sound := 0
  keys := Vector.replicate 16 false
  mem := []
  display := Vector.replicate 2048 false
  fault := none

end Sys2Proof.Machine
end

