-- ==== Sys2Proof/Machine/Ops.lean ====
section
/-! DEFINITION. The named operations over registers, RAM, display, stack and `PC` (00_scope.md R10, 20_memory.md R44 to
R47, 10_state.md R25), and the entry into a fault (60_exceptions.md R152, R153). The return from a fault is the reset
transaction alone (R154): there is no other. -/

namespace Sys2Proof.Machine

/-! ### Registers -/

/-- `V[r]` (R20). -/
def State.reg (s : State) (r : Reg) : Byte := s.regs[r.val]

/-- `V[r] <- v` (R20). -/
def State.setReg (s : State) (r : Reg) (v : Byte) : State := { s with regs := s.regs.set r.val v }

/-- `I <- v` (R24). -/
def State.setIndex (s : State) (v : Word) : State := { s with index := v }

/-- `PC <- v` (R22). -/
def State.setPc (s : State) (v : Word) : State := { s with pc := v }

/-- The fetch's `PC <- PC + 2` (30_encoding.md R64), and the further 2 of a skip taken (40_control_flow.md R80). -/
def State.advance (s : State) : State := s.setPc (s.pc + 2)

/-! ### Faults -/

/-- Fault entry (R153): the record is latched and nothing else of the state before the transaction changes, so that every
write of the transaction, the `PC` advance among them, is as if it had not happened (R152). -/
def State.takeFault (s : State) (f : Fault) : State := { s with fault := some f }

/-- The end of an instruction that began in `s`: its state, or the entry into the fault it raised (R152, R153). -/
def State.commit (s : State) (r : Except Fault State) : Host.Outcome State Fault Refusal :=
  match r with
  | .ok t => .next t
  | .error f => .next (s.takeFault f)

/-! ### RAM (20_memory.md) -/

/-- `M[a]`, unchecked. -/
def State.byte (s : State) (a : Nat) : Byte := s.mem.read a

/-- `MemRead(addr, 1)` (R44). -/
def State.memRead (s : State) (a : Nat) : Except Fault Byte :=
  if a + 1 > Config.memSize then .error (.outOfBounds .ram (max a Config.memSize)) else .ok (s.byte a)

/-- `MemRead(addr, 2)`, big-endian (R44, R48). -/
def State.memReadWord (s : State) (a : Nat) : Except Fault Word :=
  if a + 2 > Config.memSize then .error (.outOfBounds .ram (max a Config.memSize))
  else .ok (wordOfBytes (s.byte a) (s.byte (a + 1)))

/-- `MemWrite(addr, 1, v)`: the bound first, then the font table (R45). -/
def State.memWrite (s : State) (a : Nat) (v : Byte) : Except Fault State :=
  if a ≥ Config.memSize then .error (.outOfBounds .ram a)
  else if a < Config.fontSize then .error (.fontRegionWrite a)
  else .ok { s with mem := s.mem.write a v }

/-- The host's placing of a byte, as `load` does under its own check (R45); an address outside RAM has no cell. -/
def State.poke (s : State) (a : Nat) (v : Byte) : State :=
  if a < Config.memSize then { s with mem := s.mem.write a v } else s

/-! ### Display (20_memory.md R47) -/

/-- `D[p]`; false outside the array, where no checked access reads. -/
def State.pixel (s : State) (p : Nat) : Bool := (s.display[p]?).getD false

/-- `DispRead(p)` (R47). -/
def State.dispRead (s : State) (p : Nat) : Except Fault Bool :=
  if p ≥ Config.dispSize then .error (.outOfBounds .display p) else .ok (s.pixel p)

/-- `DispWrite(p, b)` (R47). -/
def State.dispWrite (s : State) (p : Nat) (b : Bool) : Except Fault State :=
  if h : p < Config.dispSize then .ok { s with display := s.display.set p b h } else .error (.outOfBounds .display p)

/-- Every pixel false (43_display.md R140). -/
def State.clearDisplay (s : State) : State := { s with display := Vector.replicate 2048 false }

/-! ### Stack (10_state.md R25) -/

/-- `S[j]`; zero outside the array, where no checked access reads. -/
def State.slot (s : State) (j : Nat) : Word := (s.stack[j]?).getD 0

/-- A push: a full stack raises `StackOverflow(SP)` (R25, 40_control_flow.md R84). -/
def State.push (s : State) (v : Word) : Except Fault State :=
  if h : s.sp.val < Config.stackDepth then
    .ok { s with stack := s.stack.set s.sp.val v h, sp := ⟨s.sp.val + 1, Nat.succ_lt_succ h⟩ }
  else .error (.stackOverflow s.sp.val)

/-- The state after a pop, which leaves the slot's value (R26). -/
def State.dropSlot (s : State) : State :=
  { s with sp := ⟨s.sp.val - 1, Nat.lt_of_le_of_lt (Nat.sub_le s.sp.val 1) s.sp.isLt⟩ }

/-- A pop into `PC`: an empty stack raises `StackUnderflow(SP)` (R25, 40_control_flow.md R82). -/
def State.popPc (s : State) : Except Fault State :=
  if s.sp.val = 0 then .error (.stackUnderflow s.sp.val)
  else .ok (s.dropSlot.setPc (s.slot (s.sp.val - 1)))

end Sys2Proof.Machine
end

