-- ==== Sys2Proof/Machine/Operands.lean ====
section
/-! DEFINITION. The operand forms of the instructions (30_encoding.md R62): the zero-extended address, the byte address of
the one addressing mode, the glyph address, the pixel index, and the ways an instruction walks them. -/

namespace Sys2Proof.Machine

/-- `zext_16(nnn)` (R62). -/
def zextAddr (nnn : Addr) : Word := nnn.setWidth 16

/-- The effective address of the i-th byte, `I + i`, exact (20_memory.md R46; 42_index_memory.md). -/
def State.effAddr (s : State) (i : Nat) : Nat := s.index.toNat + i

/-- The glyph address of a digit register: five times its low nibble (42_index_memory.md R122). -/
def glyphAddr (v : Byte) : Word := BitVec.ofNat 16 (Config.glyphBytes * (v.extractLsb' 0 4).toNat)

/-- The index of a sprite's first pixel, `64 * vy + vx`, exact (20_memory.md R46; 43_display.md R141). -/
def pixelBase (vx vy : Byte) : Nat := Config.dispWidth * vy.toNat + vx.toNat

/-- `V[i]` for a register counted by a loop; the loops count below 15. -/
def regNumber (i : Nat) : Reg := Fin.ofNat 16 i

/-- A skip taken adds a further 2 to `PC` (40_control_flow.md R80). -/
def State.skipIf (s : State) (c : Bool) : State := if c then s.advance else s

/-- `MemWrite(I + i, 1, V[i])` for `count` registers from register `i` upward (42_index_memory.md R123). -/
def State.storeRegs (s : State) : (count i : Nat) → Except Fault State
  | 0, _ => .ok s
  | count + 1, i =>
    match s.memWrite (s.effAddr i) (s.reg (regNumber i)) with
    | .error f => .error f
    | .ok t => t.storeRegs count (i + 1)

/-- `V[i] <- MemRead(I + i, 1)` for `count` registers from register `i` upward (42_index_memory.md R124). -/
def State.loadRegs (s : State) : (count i : Nat) → Except Fault State
  | 0, _ => .ok s
  | count + 1, i =>
    match s.memRead (s.effAddr i) with
    | .error f => .error f
    | .ok b => (s.setReg (regNumber i) b).loadRegs count (i + 1)

end Sys2Proof.Machine
end

