-- ==== Sys2Proof/Machine/Flags.lean ====
section
/-! DEFINITION. The three flag values written to `VF` (10_state.md R21). -/

namespace Sys2Proof.Machine

/-- A flag as the byte `VF` holds. -/
def flagByte (b : Bool) : Byte := if b then 1 else 0

/-- The carry of `ADD_reg`: 1 when the unsigned sum exceeds 255 (41_alu.md R107). -/
def carryFlag (vx vy : Byte) : Byte := flagByte (decide (vx.toNat + vy.toNat > 255))

/-- The no-borrow flag of `SUB`: 1 when the first operand is strictly greater (41_alu.md R108). -/
def noBorrowFlag (vx vy : Byte) : Byte := flagByte (decide (vx.toNat > vy.toNat))

/-- `V[0xF] <- flag` (R21). -/
def State.setFlag (s : State) (v : Byte) : State := s.setReg Config.vf v

end Sys2Proof.Machine
end

