-- ==== Sys2Proof/Machine/Alu.lean ====
section
/-! DEFINITION. Register loads and the ALU (41_alu.md). None of these instructions raises a fault of its own. -/

namespace Sys2Proof.Machine

/-- LD Vx, kk, `6xkk` (R101). -/
def execLdImm (x : Reg) (kk : Byte) (s : State) : Host.Outcome State Fault Refusal := .next (s.advance.setReg x kk)

/-- ADD Vx, kk, `7xkk` (R102): modulo 256, no flag. -/
def execAddImm (x : Reg) (kk : Byte) (s : State) : Host.Outcome State Fault Refusal :=
  .next (s.advance.setReg x (s.reg x + kk))

/-- LD Vx, Vy, `8xy0` (R103). -/
def execLdReg (x y : Reg) (s : State) : Host.Outcome State Fault Refusal := .next (s.advance.setReg x (s.reg y))

/-- OR Vx, Vy, `8xy1` (R104). UNVERIFIED (notes/assumptions/23.md), unsafe: no flag. -/
def execOr (x y : Reg) (s : State) : Host.Outcome State Fault Refusal :=
  .next (s.advance.setReg x (s.reg x ||| s.reg y))

/-- AND Vx, Vy, `8xy2` (R105). UNVERIFIED (notes/assumptions/23.md), unsafe: no flag. -/
def execAnd (x y : Reg) (s : State) : Host.Outcome State Fault Refusal :=
  .next (s.advance.setReg x (s.reg x &&& s.reg y))

/-- XOR Vx, Vy, `8xy3` (R106). UNVERIFIED (notes/assumptions/23.md), unsafe: no flag. -/
def execXor (x y : Reg) (s : State) : Host.Outcome State Fault Refusal :=
  .next (s.advance.setReg x (s.reg x ^^^ s.reg y))

/-- `V[x] <- (V[x] + V[y]) mod 256` from the register file as it stands (R100). -/
def State.addRegs (s : State) (x y : Reg) : State := s.setReg x (s.reg x + s.reg y)

/-- `V[x] <- (V[x] - V[y]) mod 256` from the register file as it stands (R100). -/
def State.subRegs (s : State) (x y : Reg) : State := s.setReg x (s.reg x - s.reg y)

/-- ADD Vx, Vy, `8xy4` (R107): the flag is written first, and the sum reads the register file after it. UNVERIFIED
(notes/assumptions/5.md), unsafe: the order where an operand is `VF`. -/
def execAddReg (x y : Reg) (s : State) : Host.Outcome State Fault Refusal :=
  .next ((s.advance.setFlag (carryFlag (s.reg x) (s.reg y))).addRegs x y)

/-- SUB Vx, Vy, `8xy5` (R108): the flag is written first, and the difference reads the register file after it. UNVERIFIED
(notes/assumptions/5.md, notes/assumptions/6.md), unsafe: that order, and the wrap below zero. -/
def execSub (x y : Reg) (s : State) : Host.Outcome State Fault Refusal :=
  .next ((s.advance.setFlag (noBorrowFlag (s.reg x) (s.reg y))).subRegs x y)

end Sys2Proof.Machine
end

