-- ==== Sys2Proof/Machine/ControlFlow.lean ====
section
/-! DEFINITION. The control-flow instructions (40_control_flow.md). Each meaning takes the state the tick began in, whose
`PC` is the fetch address; `advance` is the fetch's `PC <- PC + 2` (30_encoding.md R64). -/

namespace Sys2Proof.Machine

/-- NOP, `0000` (R81). -/
def execNop (s : State) : Host.Outcome State Fault Refusal := .next s.advance

/-- RET, `00EE` (R82). -/
def execRet (s : State) : Host.Outcome State Fault Refusal := s.commit s.advance.popPc

/-- JP, `1nnn` (R83). -/
def execJp (nnn : Addr) (s : State) : Host.Outcome State Fault Refusal := .next (s.advance.setPc (zextAddr nnn))

/-- CALL, `2nnn` (R84): the pushed value is the address after the call. -/
def execCall (nnn : Addr) (s : State) : Host.Outcome State Fault Refusal :=
  match s.advance.push s.advance.pc with
  | .error f => s.commit (.error f)
  | .ok t => s.commit (.ok (t.setPc (zextAddr nnn)))

/-- SE Vx, kk, `3xkk` (R85). -/
def execSeImm (x : Reg) (kk : Byte) (s : State) : Host.Outcome State Fault Refusal :=
  .next (s.advance.skipIf (s.reg x == kk))

/-- SNE Vx, kk, `4xkk` (R86). -/
def execSneImm (x : Reg) (kk : Byte) (s : State) : Host.Outcome State Fault Refusal :=
  .next (s.advance.skipIf (s.reg x != kk))

/-- SE Vx, Vy, `5xy0` (R87). -/
def execSeReg (x y : Reg) (s : State) : Host.Outcome State Fault Refusal :=
  .next (s.advance.skipIf (s.reg x == s.reg y))

end Sys2Proof.Machine
end

