-- ==== Sys2Proof/Machine/Display.lean ====
section
/-! DEFINITION. The display instructions (43_display.md). -/

namespace Sys2Proof.Machine

/-- CLS, `00E0` (R140). -/
def execCls (s : State) : Host.Outcome State Fault Refusal := .next s.advance.clearDisplay

/-- What a row does once its byte `b` and its pixel's value `cur` are read: 0xFF toggles the pixel, and turning it off
sets `VF`; any other byte leaves it (R141). -/
def State.toggleRow (s : State) (p : Nat) (b : Byte) (cur : Bool) : Except Fault State :=
  if b = 0xFF then
    if cur then
      match s.dispWrite p false with
      | .error f => .error f
      | .ok t => .ok (t.setFlag 1)
    else s.dispWrite p true
  else .ok s

/-- One row of `Dxyn` (R141): `VF <- 0`, the byte's bound, the pixel's bound, then the pixel. UNVERIFIED
(notes/assumptions/10.md, notes/assumptions/15.md), unsafe: the bound is checked whatever the byte, and the draw is by
byte equality. -/
def State.drawRow (s : State) (base row : Nat) : Except Fault State :=
  match (s.setFlag 0).memRead (s.effAddr row) with
  | .error f => .error f
  | .ok b =>
    match (s.setFlag 0).dispRead (base + row) with
    | .error f => .error f
    | .ok cur => (s.setFlag 0).toggleRow (base + row) b cur

/-- `count` rows from row `row` upward (R141). -/
def State.drawRows (s : State) (base : Nat) : (count row : Nat) → Except Fault State
  | 0, _ => .ok s
  | count + 1, row =>
    match s.drawRow base row with
    | .error f => .error f
    | .ok t => t.drawRows base count (row + 1)

/-- DRW Vx, Vy, n, `Dxyn` (R141): the coordinates are read once, before row 0 writes `VF`. UNVERIFIED
(notes/assumptions/9.md), unsafe: that reading, where a coordinate register is `VF`. -/
def execDrw (x y : Reg) (n : Nat) (s : State) : Host.Outcome State Fault Refusal :=
  s.commit (s.advance.drawRows (pixelBase (s.reg x) (s.reg y)) n 0)

end Sys2Proof.Machine
end

