-- ==== Sys2Proof/Machine/Index.lean ====
section
/-! DEFINITION. The index register and memory transfer (42_index_memory.md). -/

namespace Sys2Proof.Machine

/-- LD I, nnn, `Annn` (R120). -/
def execLdI (nnn : Addr) (s : State) : Host.Outcome State Fault Refusal := .next (s.advance.setIndex (zextAddr nnn))

/-- ADD I, Vx, `Fx1E` (R121): the sum is exact, and one above 0xFFFF raises. UNVERIFIED (notes/assumptions/7.md), unsafe:
a core that wraps would go on. -/
def execAddI (x : Reg) (s : State) : Host.Outcome State Fault Refusal :=
  if s.index.toNat + (s.reg x).toNat > 0xFFFF then s.commit (.error (.arithmeticOverflow s.index (s.reg x)))
  else s.commit (.ok (s.advance.setIndex (BitVec.ofNat 16 (s.index.toNat + (s.reg x).toNat))))

/-- LD F, Vx, `Fx29` (R122). -/
def execLdF (x : Reg) (s : State) : Host.Outcome State Fault Refusal := .next (s.advance.setIndex (glyphAddr (s.reg x)))

/-- LD [I], Vx, `Fx55` (R123): registers 0 to x - 1; `I` is unchanged. UNVERIFIED (notes/assumptions/8.md,
notes/assumptions/22.md), unsafe: the fault in the font table, and that `I` stays. -/
def execLdStore (x : Reg) (s : State) : Host.Outcome State Fault Refusal := s.commit (s.advance.storeRegs x.val 0)

/-- LD Vx, [I], `Fx65` (R124): registers 0 to x - 1; `I` is unchanged. UNVERIFIED (notes/assumptions/22.md), unsafe. -/
def execLdLoad (x : Reg) (s : State) : Host.Outcome State Fault Refusal := s.commit (s.advance.loadRegs x.val 0)

end Sys2Proof.Machine
end

