-- ==== Sys2Proof/Machine/Fetch.lean ====
section
/-! DEFINITION. The execution cycle: fetch, decode, execute (30_encoding.md R64). -/

namespace Sys2Proof.Machine

/-- The word at `PC` (R60, R64), or the fault of a fetch outside RAM (20_memory.md R44). -/
def State.fetch (s : State) : Except Fault Word := s.memReadWord s.pc.toNat

/-- One `tick` with no fault latched (R64): the fetch, then the decoder, then the instruction, each of which may raise
(60_exceptions.md R155). -/
def fetchExecute (s : State) : Host.Outcome State Fault Refusal :=
  match s.fetch with
  | .error f => s.commit (.error f)
  | .ok w =>
    match decode w with
    | none => s.commit (.error (.unsupportedOpcode w))
    | some i => exec i s

/-- One `tick` (R64): with a fault latched it is refused, changes nothing and responds with the record (60_exceptions.md
R154). -/
def tick (s : State) : Host.Outcome State Fault Refusal :=
  match s.fault with
  | some f => .fault f
  | none => fetchExecute s

/-- Stores a word big-endian at `PC` (20_memory.md R48), where the next fetch reads it. -/
def State.placeWord (s : State) (w : Word) : State :=
  (s.poke s.pc.toNat (w.extractLsb' 8 8)).poke (s.pc.toNat + 1) (w.extractLsb' 0 8)

end Sys2Proof.Machine
end

