-- ==== Sys2Proof/Machine/Step.lean ====
section
/-! DEFINITION. The step of the machine is one `tick` transaction (00_scope.md R7, 30_encoding.md R64). -/

namespace Sys2Proof.Machine

/-- One step: one `tick`. -/
def step : State → Host.Outcome State Fault Refusal := tick

/-- The state with an instruction of `nbits` bits `w` where the next step fetches; bits at and above `nbits` are zero.
It stands for the host's `load` (notes/assumptions/26.md). -/
def State.withFetchWord (s : State) (nbits w : Nat) : State := s.placeWord (BitVec.ofNat 16 (w % 2 ^ nbits))

end Sys2Proof.Machine
end

