-- ==== Sys2Proof/Machine/Transactions.lean ====
section
/-! DEFINITION. The transactions the host issues (00_scope.md R7), each with its response: reset, load, tick, tick_timers,
keypress, get_display (60_exceptions.md R150 to R163; 70_reset_and_hazards.md R180 to R183). -/

namespace Sys2Proof.Machine

/-- The transactions of R7. `new` and `reset` are one operation (70_reset_and_hazards.md R180). -/
inductive Txn where
  | reset
  | load (data : List Byte)
  | tick
  | tickTimers
  | keypress (index : Nat) (pressed : Bool)
  | getDisplay
  deriving DecidableEq, Repr

/-- The responses of R7. -/
inductive Response where
  /-- `reset` responds with nothing. -/
  | nothing
  | ok
  /-- The transaction raised this fault, or was refused with this fault latched (R153, R154). -/
  | faulted (f : Fault)
  /-- `tick_timers` moved `ST` from 1 to 0, or did not (R160). -/
  | soundExpired (b : Bool)
  /-- The 2048 pixels (R163). -/
  | pixels (d : Vector Bool 2048)
  /-- A tick whose instruction has no meaning in this model; no instruction is left so. -/
  | noMeaning (r : Refusal)
  deriving DecidableEq, Repr

/-- The cause code of a fault (R150). -/
def Fault.code : Fault → Nat
  | .unsupportedOpcode _ => 1
  | .outOfBounds _ _ => 2
  | .stackOverflow _ => 3
  | .stackUnderflow _ => 4
  | .arithmeticOverflow _ _ => 5
  | .fontRegionWrite _ => 6
  | .keyIndexOutOfRange _ => 7

/-- A transaction that raises: the latch is set, and the record is the response (R153). -/
def State.raise (s : State) (f : Fault) : State × Response := (s.takeFault f, .faulted f)

/-- The refusal of R154: with a fault latched the transaction changes nothing and responds with the record. -/
def State.unlessFaulted (s : State) (r : State × Response) : State × Response :=
  match s.fault with
  | some f => (s, .faulted f)
  | none => r

/-- Puts bytes at rising addresses from `a` (R181). -/
def State.pokeAll (s : State) (a : Nat) : List Byte → State
  | [] => s
  | b :: rest => (s.poke a b).pokeAll (a + 1) rest

/-- `load(data)` for either value of `LOAD_SETS_PC` (R181). -/
def loadWith (setsPc : Bool) (data : List Byte) (s : State) : State × Response :=
  s.unlessFaulted <|
    if data.length > Config.maxLoad then s.raise (.outOfBounds .ram Config.memSize)
    else if setsPc then ((s.pokeAll Config.progBase data).setPc 0x200, .ok)
    else (s.pokeAll Config.progBase data, .ok)

/-- `load(data)` (R181, R182). -/
def loadTxn (data : List Byte) (s : State) : State × Response := loadWith loadSetsPc data s

/-- `tick` with its response: a fault latched by it is the response (R64, R153). -/
def tickTxn (s : State) : State × Response :=
  match step s with
  | .next t =>
    match t.fault with
    | none => (t, .ok)
    | some f => (t, .faulted f)
  | .fault f => (s, .faulted f)
  | .refused r => (s, .noMeaning r)

/-- A timer counts down and stays at zero (R159). -/
def countDown (v : Byte) : Byte := if v = 0 then 0 else v - 1

/-- `tick_timers()` (R159, R160). -/
def tickTimersTxn (s : State) : State × Response :=
  s.unlessFaulted ({ s with delay := countDown s.delay, sound := countDown s.sound }, .soundExpired (s.sound == 1))

/-- `keypress(index, pressed)` (R162, R156). -/
def keypressTxn (index : Nat) (pressed : Bool) (s : State) : State × Response :=
  s.unlessFaulted <|
    if h : index < Config.keyCount then ({ s with keys := s.keys.set index pressed h }, .ok)
    else s.raise (.keyIndexOutOfRange index)

/-- `get_display()` (R163), with or without a fault latched (R154). -/
def getDisplayTxn (s : State) : State × Response := (s, .pixels s.display)

/-- One transaction: the state after it, and its response. `reset` gives the reset state whatever came before (R180). -/
def Txn.run : Txn → State → State × Response
  | .reset, _ => (State.reset, .nothing)
  | .load data, s => loadTxn data s
  | .tick, s => tickTxn s
  | .tickTimers, s => tickTimersTxn s
  | .keypress index pressed, s => keypressTxn index pressed s
  | .getDisplay, s => getDisplayTxn s

/-- The state after a transaction. -/
def Txn.after (t : Txn) (s : State) : State := (t.run s).1

/-- The response of a transaction. -/
def Txn.response (t : Txn) (s : State) : Response := (t.run s).2

/-- The state after a sequence of transactions, one at a time (00_scope.md R6). -/
def runTxns : List Txn → State → State
  | [], s => s
  | t :: rest, s => runTxns rest (t.after s)

end Sys2Proof.Machine
end

