-- ==== Sys2Proof/Safety.lean ====
section
/-! DEFINITION. What claims are stated in: the parts of the state and their frames, the invariant every step keeps, which
fault an instruction may raise, and the words that are unsupported opcodes. -/

namespace Sys2Proof.Safety

open Sys2Proof.Machine

/-! ### Frames -/

/-- The elements of the state (10_state.md). -/
inductive Part where
  | regs | index | pc | stack | sp | delay | sound | keys | ram | display | fault
  deriving DecidableEq, Repr

/-- The part reads in `t` as it reads in `s`: RAM byte by byte, registers one by one. -/
def Part.Same (s t : State) : Part → Prop
  | .regs => ∀ r, t.reg r = s.reg r
  | .index => t.index = s.index
  | .pc => t.pc = s.pc
  | .stack => t.stack = s.stack
  | .sp => t.sp = s.sp
  | .delay => t.delay = s.delay
  | .sound => t.sound = s.sound
  | .keys => t.keys = s.keys
  | .ram => ∀ a, t.byte a = s.byte a
  | .display => t.display = s.display
  | .fault => t.fault = s.fault

/-- Every part but those listed is unchanged. -/
def UnchangedBut (changed : List Part) (s t : State) : Prop := ∀ p, p ∉ changed → p.Same s t

/-- An instruction that writes one general register with a number and goes to the next instruction. -/
def WritesReg (s t : State) (x : Reg) (v : Nat) : Prop :=
  (t.reg x).toNat = v ∧ (∀ r, r ≠ x → t.reg r = s.reg r) ∧ t.pc = s.pc + 2 ∧ UnchangedBut [.pc, .regs] s t

/-- An instruction that writes the index register with a number and goes to the next instruction. -/
def WritesIndex (s t : State) (v : Nat) : Prop :=
  t.index.toNat = v ∧ t.pc = s.pc + 2 ∧ UnchangedBut [.pc, .index] s t

/-- An instruction that only moves `PC`. -/
def MovesPc (s t : State) (pc : Word) : Prop := t.pc = pc ∧ UnchangedBut [.pc] s t

/-! ### The invariant -/

/-- What holds after reset and after every transaction: RAM in its canonical form, the font table as reset left it
(20_memory.md R43), `PC` at most 0x1002 (10_state.md R23), and every stack slot an address a call can push. -/
structure Inv (s : State) : Prop where
  ramForm : s.mem.wf
  fontIntact : ∀ a, a < 80 → s.byte a = fontByte a
  pcBound : s.pc.toNat ≤ 0x1002
  slotBound : ∀ j, j < 16 → (s.slot j).toNat ≤ 0x1000

/-! ### Faults -/

/-- The faults an instruction may raise after the fetch (60_exceptions.md R151). -/
def mayRaise : Instr → Fault → Prop
  | .ret, .stackUnderflow _ => True
  | .call _, .stackOverflow _ => True
  | .addI _, .arithmeticOverflow _ _ => True
  | .ldStore _, .outOfBounds .ram _ => True
  | .ldStore _, .fontRegionWrite _ => True
  | .ldLoad _, .outOfBounds .ram _ => True
  | .drw _ _ _, .outOfBounds _ _ => True
  | _, _ => False

/-- The transactions refused while a fault is latched (60_exceptions.md R154). -/
def refusable : Txn → Bool
  | .load _ => true
  | .tick => true
  | .tickTimers => true
  | .keypress _ _ => true
  | .reset => false
  | .getDisplay => false

/-! ### Decoding -/

/-- The classes of unsupported words, by the fields of the word's number (30_encoding.md R66). -/
def unsupportedWord (w : Nat) : Prop :=
  (w / 0x1000 = 0x0 ∧ w ≠ 0x0000 ∧ w ≠ 0x00E0 ∧ w ≠ 0x00EE)
  ∨ (w / 0x1000 = 0x5 ∧ w % 0x10 ≠ 0)
  ∨ (w / 0x1000 = 0x8 ∧ 6 ≤ w % 0x10)
  ∨ w / 0x1000 = 0x9 ∨ w / 0x1000 = 0xB ∨ w / 0x1000 = 0xC ∨ w / 0x1000 = 0xE
  ∨ (w / 0x1000 = 0xF ∧ w % 0x100 ≠ 0x1E ∧ w % 0x100 ≠ 0x29 ∧ w % 0x100 ≠ 0x55 ∧ w % 0x100 ≠ 0x65)

/-- The next tick from `s` executes `i`: no fault is latched, and the word at `PC` decodes to `i` (R64). -/
def Executes (s : State) (i : Instr) : Prop := s.fault = none ∧ ∃ w, s.fetch = .ok w ∧ decode w = some i

/-! ### Comparing two runs -/

/-- The same state with other key flags and timers, which no instruction reads (10_state.md R27, R28). -/
def withHostInputs (keys : Vector Bool 16) (delay sound : Byte) (s : State) : State :=
  { s with keys := keys, delay := delay, sound := sound }

/-- A function of the next state; a fault or a refusal stays. -/
def mapNext (f : State → State) : Host.Outcome State Fault Refusal → Host.Outcome State Fault Refusal
  | .next t => .next (f t)
  | .fault r => .fault r
  | .refused r => .refused r

end Sys2Proof.Safety
end

