-- ==== Sys2Proof/Certificates/Slice0/Obligations.lean ====
section
/-! DEFINITION. The statements of this row, from the spec's numbered rules. A statement that rests on one of the spec's own
decisions (92_eei_decisions.md), or on a choice of the model, names it. `s.takeFault f` is `s` with only the latch set to `f`: the
entry into a fault, which R152 and R153 describe (decision D1) and which the model answers as a NEXT state by its own
choice (log 1). -/

open Sys2Proof Sys2Proof.Machine Sys2Proof.Safety

/-! ### Reset -/

/-- R33, R180: reset gives, from any state, every element its reset value. The font bytes are the parameter `FONT`; the
empty latch is the spec's decision D2, a row of R33. -/
def Obligations.ResetGivesTheResetState : Prop :=
  ∀ s : State,
    Txn.reset.run s = (State.reset, .nothing) ∧
    (∀ r, State.reset.reg r = 0) ∧ State.reset.pc = 0x200 ∧ State.reset.index = 0 ∧
    (∀ j, j < 16 → State.reset.slot j = 0) ∧ State.reset.sp = 0 ∧ State.reset.delay = 0 ∧ State.reset.sound = 0 ∧
    (∀ k, k < 16 → State.reset.keys[k]? = some false) ∧
    (∀ a, a < 80 → State.reset.byte a = fontByte a) ∧ (∀ a, 80 ≤ a → a < 4096 → State.reset.byte a = 0) ∧
    (∀ p, p < 2048 → State.reset.display[p]? = some false) ∧ State.reset.fault = none

/-- The default `FONT` (log 16: the spec takes the bytes from general knowledge, decision D16): 80 bytes, none of them
0xFF, with glyphs 0, A and F as the table lists them. -/
def Obligations.DefaultFontTable : Prop :=
  font.length = 80 ∧ (∀ a, a < 80 → fontByte a ≠ 0xFF) ∧
  (List.range 5).map (fun i => fontByte (5 * 0x0 + i)) = [0xF0, 0x90, 0x90, 0x90, 0xF0] ∧
  (List.range 5).map (fun i => fontByte (5 * 0xA + i)) = [0xF0, 0x90, 0xF0, 0x90, 0x90] ∧
  (List.range 5).map (fun i => fontByte (5 * 0xF + i)) = [0xF0, 0x80, 0xF0, 0x80, 0x80]

/-! ### The execution cycle -/

/-- The execution cycle (R64, with R44, R66, R153 and R154): with a fault latched the tick is refused (decision D2);
otherwise it fetches the big-endian word at `PC`, which faults outside RAM (the record is decision D21), and executes the
instruction the word decodes to (whose meaning holds the `PC` advance), or faults. The model's choices: a refused tick is
the outcome `fault` (log 2), and a fault's entry is a next state, the `PC` advance undone (log 1, decision D1). -/
def Obligations.StepRunsTheDecodedInstruction : Prop :=
  ∀ s : State,
    (∀ f, s.fault = some f → step s = .fault f) ∧
    (s.fault = none → 4096 < s.pc.toNat + 2 →
      step s = .next (s.takeFault (.outOfBounds .ram (max s.pc.toNat 4096)))) ∧
    (s.fault = none → s.pc.toNat + 2 ≤ 4096 →
      (∀ i, decode (s.byte s.pc.toNat ++ s.byte (s.pc.toNat + 1)) = some i → step s = exec i s) ∧
      (decode (s.byte s.pc.toNat ++ s.byte (s.pc.toNat + 1)) = none →
        step s = .next (s.takeFault (.unsupportedOpcode (s.byte s.pc.toNat ++ s.byte (s.pc.toNat + 1))))))

/-- Every instruction answers a next state from every state: its effect, or the entry into its fault, which is a next state
by the model's choice (log 1, decision D1). -/
def Obligations.EveryInstructionAnswersANextState : Prop :=
  ∀ (i : Instr) (s : State), ∃ t, exec i s = .next t

/-- Decision D2: while a fault is latched, `tick`, `tick_timers`, `keypress` and `load` change nothing and respond with
it; `get_display` still returns the display, and `reset` clears the latch. That a refused `tick` is the step's outcome
`fault` is the model's choice (log 2). -/
def Obligations.RefusedWhileAFaultIsLatched : Prop :=
  ∀ (s : State) (f : Fault), s.fault = some f →
    (∀ t : Txn, refusable t = true → t.run s = (s, .faulted f)) ∧
    Txn.getDisplay.run s = (s, .pixels s.display) ∧
    (Txn.reset.after s).fault = none

/-- Decision D1 (log 1): a transaction that responds with a fault leaves the state before it, but for the latch, which
holds that fault. -/
def Obligations.FaultsChangeOnlyTheLatch : Prop :=
  ∀ (t : Txn) (s : State) (f : Fault), t.response s = .faulted f → t.after s = s.takeFault f

/-- The faults each instruction may raise after the fetch (the spec derives the list, marked so at its head). To raise one
is to answer a next state with it latched: the model's choice (log 1, decision D1). -/
def Obligations.EachInstructionRaisesOnlyItsFaults : Prop :=
  ∀ (i : Instr) (s t : State) (f : Fault),
    s.fault = none → exec i s = .next t → t.fault = some f → mayRaise i f

/-! ### Encoding -/

/-- Words written out from the opcode map, and words that no row matches. -/
def Obligations.DecodeOfSampleWords : Prop :=
  decode 0x0000 = some .nop ∧ decode 0x00E0 = some .cls ∧ decode 0x00EE = some .ret ∧
  decode 0x1ABC = some (.jp 0xABC) ∧ decode 0x2210 = some (.call 0x210) ∧ decode 0x3342 = some (.seImm 3 0x42) ∧
  decode 0x8124 = some (.addReg 1 2) ∧ decode 0xA223 = some (.ldI 0x223) ∧ decode 0xD343 = some (.drw 3 4 3) ∧
  decode 0xF255 = some (.ldStore 2) ∧ decode 0xF365 = some (.ldLoad 3) ∧
  decode 0x5121 = none ∧ decode 0x00E1 = none ∧ decode 0xF11F = none ∧ decode 0x9120 = none

/-- Decoding the word of a well-formed instruction gives the instruction. -/
def Obligations.DecodeOfEncode : Prop :=
  ∀ i : Instr, i.wellFormed = true → decode (encode i) = some i

/-- A word that decodes is the word of its instruction, which is well-formed: no bit of it is ignored. -/
def Obligations.EncodeOfDecode : Prop :=
  ∀ (w : Word) (i : Instr), decode w = some i → i.wellFormed = true ∧ encode i = w

/-- The rows of the opcode table are pairwise disjoint, and a word decodes to an instruction of a row exactly when the
row's mask and pattern hold of it. -/
def Obligations.DecodeAgreesWithTheOpcodeTable : Prop :=
  opcodeTable.length = 22 ∧
  (∀ w : Word, ∀ r ∈ opcodeTable, ∀ q ∈ opcodeTable, r.holds w = true → q.holds w = true → r = q) ∧
  (∀ (w : Word), ∀ r ∈ opcodeTable, r.holds w = true ↔ ∃ i, decode w = some i ∧ rowOf i = r)

/-- The words that decode to no instruction are exactly the classes R66 lists, and executing one raises `UnsupportedOpcode`
with the raw word. That its entry is a next state, the `PC` advance undone, is decision D1 and the model's choice (log 1). -/
def Obligations.UnsupportedWordsFault : Prop :=
  (∀ w : Word, decode w = none ↔ unsupportedWord w.toNat) ∧
  (∀ (s : State) (w : Word), s.fault = none → s.fetch = .ok w → unsupportedWord w.toNat →
    step s = .next (s.takeFault (.unsupportedOpcode w)))

/-! ### Invariants -/

/-- The invariant holds after reset. -/
def Obligations.InvariantHoldsAtReset : Prop := Inv State.reset

/-- Every step keeps the invariant: RAM stays canonical, the font table stays as reset left it, `PC` stays at most 0x1002,
and the stack slots stay at most 0x1000. The font part rests on decision D8, the `PC` part on D3. -/
def Obligations.EveryStepKeepsTheInvariant : Prop :=
  ∀ s t : State, Inv s → step s = .next t → Inv t

/-- Every transaction of the host keeps the invariant, `load` and `reset` among them. -/
def Obligations.EveryTransactionKeepsTheInvariant : Prop :=
  ∀ (s : State) (t : Txn), Inv s → Inv (t.after s)

/-! ### Whole-machine rules -/

/-- R27: `DT` and `ST` change only by `tick_timers` and reset, and no instruction reads or writes them: two runs that
differ in them alone stay so. -/
def Obligations.TimersAreTouchedOnlyByTickTimers : Prop :=
  (∀ (t : Txn) (s : State), t ≠ .tickTimers → t ≠ .reset →
    (t.after s).delay = s.delay ∧ (t.after s).sound = s.sound) ∧
  (∀ (s : State) (d v : Byte), step (withHostInputs s.keys d v s) = mapNext (withHostInputs s.keys d v) (step s))

/-- Once both timers are 0, as after reset, every transaction leaves them 0 and none responds that the sound expired (the
spec derives this in the rules of the timers and of `sound_expired`). -/
def Obligations.TimersAtZeroStayAtZero : Prop :=
  ∀ (t : Txn) (s : State), s.delay = 0 → s.sound = 0 →
    (t.after s).delay = 0 ∧ (t.after s).sound = 0 ∧ t.response s ≠ .soundExpired true

/-- R28: the key flags change only by `keypress` and reset, and no instruction reads them: two runs that differ in them
alone stay so. -/
def Obligations.KeysHaveNoEffectOnExecution : Prop :=
  (∀ (t : Txn) (s : State), (t.after s).keys ≠ s.keys → t = .reset ∨ ∃ i b, t = .keypress i b) ∧
  (∀ (s : State) (k : Vector Bool 16),
    step (withHostInputs k s.delay s.sound s) = mapNext (fun t => withHostInputs k t.delay t.sound t) (step s))

/-- R142: the display changes only through `00E0`, `Dxyn` and reset. -/
def Obligations.DisplayChangesOnlyByDrawing : Prop :=
  ∀ (t : Txn) (s : State), (t.after s).display ≠ s.display →
    t = .reset ∨ (t = .tick ∧ (Executes s .cls ∨ ∃ x y n, Executes s (.drw x y n)))

/-- RAM changes only through reset, `load` at 0x200 and above, and `Fx55`, and there only at `I + i` with i < x, outside
the font table (the font part is decision D8). -/
def Obligations.RamChangesOnlyByStoreLoadReset : Prop :=
  ∀ (t : Txn) (s : State) (a : Nat), (t.after s).byte a ≠ s.byte a →
    t = .reset ∨
    (∃ data, t = .load data ∧ 0x200 ≤ a ∧ a < 0x200 + data.length) ∨
    (t = .tick ∧ ∃ x : Reg, Executes s (.ldStore x) ∧ 80 ≤ a ∧ ∃ i, i < x.val ∧ a = s.effAddr i)

/-- Only `2nnn` writes a stack slot; only `2nnn` and `00EE` move `SP`. -/
def Obligations.StackChangesOnlyByCallAndReturn : Prop :=
  ∀ s t : State, step s = .next t →
    (t.stack ≠ s.stack → ∃ nnn, Executes s (.call nnn)) ∧
    (t.sp ≠ s.sp → Executes s .ret ∨ ∃ nnn, Executes s (.call nnn))

/-- `VF` changes only by the three flag writers and by an instruction whose destination it is. -/
def Obligations.VfChangesOnlyByFlagWritersAndAsDestination : Prop :=
  ∀ (i : Instr) (s t : State), exec i s = .next t → t.reg 15 ≠ s.reg 15 →
    (∃ x y, i = .addReg x y) ∨ (∃ x y, i = .sub x y) ∨ (∃ x y n, i = .drw x y n) ∨
    (∃ kk, i = .ldImm 15 kk) ∨ (∃ kk, i = .addImm 15 kk) ∨
    (∃ y, i = .ldReg 15 y ∨ i = .or 15 y ∨ i = .and 15 y ∨ i = .xor 15 y)

/-! ### Control flow -/

/-- R81: `0000` only goes to the next instruction. -/
def Obligations.NopOnlyAdvances : Prop :=
  decode 0x0000 = some .nop ∧
  ∀ s : State, ∃ t, exec .nop s = .next t ∧ MovesPc s t (s.pc + 2)

/-- `00EE` pops the stack into `PC` (R82) and leaves the slot's value (R26, decision D12, log 12); with an empty stack it
raises `StackUnderflow` (the record is decision D21) and nothing but the latch changes, which is a next state by decision
D1 and the model's choice (log 1). -/
def Obligations.RetPopsOrUnderflows : Prop :=
  decode 0x00EE = some .ret ∧
  (∀ s : State, 0 < s.sp.val → ∃ t, exec .ret s = .next t ∧
    t.sp.val = s.sp.val - 1 ∧ t.pc = s.slot (s.sp.val - 1) ∧ UnchangedBut [.pc, .sp] s t) ∧
  (∀ s : State, s.sp.val = 0 → exec .ret s = .next (s.takeFault (.stackUnderflow 0)))

/-- R83: `1nnn` sets `PC` to `nnn`, odd or even; at its own address it leaves the whole state unchanged. -/
def Obligations.JpSetsPc : Prop :=
  ∀ nnn : Addr, decode (BitVec.ofNat 16 (0x1000 + nnn.toNat)) = some (.jp nnn) ∧
    (∀ s : State, ∃ t, exec (.jp nnn) s = .next t ∧ t.pc.toNat = nnn.toNat ∧ UnchangedBut [.pc] s t) ∧
    (∀ s : State, s.pc.toNat = nnn.toNat → exec (.jp nnn) s = .next s)

/-- A jump to its own address leaves the whole state unchanged, tick after tick (the spec derives this from the rule of
`1nnn`). -/
def Obligations.JumpToSelfLeavesTheStateUnchanged : Prop :=
  ∀ (s : State) (nnn : Addr), s.fault = none → s.pc = nnn.setWidth 16 → s.fetch = .ok (0x1000 + nnn.setWidth 16) →
    step s = .next s

/-- `2nnn` pushes the address after the call and sets `PC` to `nnn` (R84, which marks the pushed value as its own inference:
"[derived: from 30_encoding.md rule R64]"); with a full stack it raises `StackOverflow` (the record is decision D21) and
nothing but the latch changes, which is a next state by decision D1 and the model's choice (log 1). -/
def Obligations.CallPushesOrOverflows : Prop :=
  ∀ nnn : Addr, decode (BitVec.ofNat 16 (0x2000 + nnn.toNat)) = some (.call nnn) ∧
    (∀ s : State, s.sp.val < 16 → ∃ t, exec (.call nnn) s = .next t ∧
      t.slot s.sp.val = s.pc + 2 ∧ (∀ j, j ≠ s.sp.val → t.slot j = s.slot j) ∧ t.sp.val = s.sp.val + 1 ∧
      t.pc.toNat = nnn.toNat ∧ UnchangedBut [.pc, .sp, .stack] s t) ∧
    (∀ s : State, s.sp.val = 16 → exec (.call nnn) s = .next (s.takeFault (.stackOverflow 16)))

/-- R85: `3xkk` passes over the next instruction when `V[x]` is `kk`. -/
def Obligations.SeImmSkipsOnEqual : Prop :=
  ∀ (x : Reg) (kk : Byte),
    decode (BitVec.ofNat 16 (0x3000 + x.val * 0x100 + kk.toNat)) = some (.seImm x kk) ∧
    ∀ s : State, ∃ t, exec (.seImm x kk) s = .next t ∧
      MovesPc s t (if s.reg x = kk then s.pc + 4 else s.pc + 2)

/-- R86: `4xkk` passes over the next instruction when `V[x]` is not `kk`. -/
def Obligations.SneImmSkipsOnUnequal : Prop :=
  ∀ (x : Reg) (kk : Byte),
    decode (BitVec.ofNat 16 (0x4000 + x.val * 0x100 + kk.toNat)) = some (.sneImm x kk) ∧
    ∀ s : State, ∃ t, exec (.sneImm x kk) s = .next t ∧
      MovesPc s t (if s.reg x = kk then s.pc + 2 else s.pc + 4)

/-- R87: `5xy0` passes over the next instruction when `V[x]` is `V[y]`; `5xyN` with another N is unsupported. -/
def Obligations.SeRegSkipsOnEqual : Prop :=
  ∀ x y : Reg,
    decode (BitVec.ofNat 16 (0x5000 + x.val * 0x100 + y.val * 0x10)) = some (.seReg x y) ∧
    (∀ n, 0 < n → n < 16 → decode (BitVec.ofNat 16 (0x5000 + x.val * 0x100 + y.val * 0x10 + n)) = none) ∧
    ∀ s : State, ∃ t, exec (.seReg x y) s = .next t ∧
      MovesPc s t (if s.reg x = s.reg y then s.pc + 4 else s.pc + 2)

/-! ### Register loads and the ALU -/

/-- R101: `6xkk` sets `V[x]` to `kk`. -/
def Obligations.LdImmSetsTheRegister : Prop :=
  ∀ (x : Reg) (kk : Byte),
    decode (BitVec.ofNat 16 (0x6000 + x.val * 0x100 + kk.toNat)) = some (.ldImm x kk) ∧
    ∀ s : State, ∃ t, exec (.ldImm x kk) s = .next t ∧ WritesReg s t x kk.toNat

/-- R102: `7xkk` adds `kk` to `V[x]` modulo 256 and writes no flag. -/
def Obligations.AddImmWrapsWithoutFlag : Prop :=
  ∀ (x : Reg) (kk : Byte),
    decode (BitVec.ofNat 16 (0x7000 + x.val * 0x100 + kk.toNat)) = some (.addImm x kk) ∧
    ∀ s : State, ∃ t, exec (.addImm x kk) s = .next t ∧ WritesReg s t x (((s.reg x).toNat + kk.toNat) % 256)

/-- R103: `8xy0` copies `V[y]` to `V[x]`. -/
def Obligations.LdRegCopies : Prop :=
  ∀ x y : Reg,
    decode (BitVec.ofNat 16 (0x8000 + x.val * 0x100 + y.val * 0x10)) = some (.ldReg x y) ∧
    ∀ s : State, ∃ t, exec (.ldReg x y) s = .next t ∧ WritesReg s t x (s.reg y).toNat

/-- `8xy1`, `8xy2` and `8xy3` write the bitwise OR, AND and XOR to `V[x]`, and no flag (decision D23). -/
def Obligations.LogicWritesOnlyTheDestination : Prop :=
  ∀ (x y : Reg) (s : State),
    (∃ t, exec (.or x y) s = .next t ∧ WritesReg s t x ((s.reg x).toNat ||| (s.reg y).toNat)) ∧
    (∃ t, exec (.and x y) s = .next t ∧ WritesReg s t x ((s.reg x).toNat &&& (s.reg y).toNat)) ∧
    (∃ t, exec (.xor x y) s = .next t ∧ WritesReg s t x ((s.reg x).toNat ^^^ (s.reg y).toNat))

/-- `8xy4`: the carry goes to `VF` first, and the sum modulo 256 of the registers as they then stand to `V[x]`, so that an
operand that is `VF` is the carry (decision D5). -/
def Obligations.AddRegWritesCarryThenSum : Prop :=
  ∀ (x y : Reg) (s : State) (c : Nat), c = (if (s.reg x).toNat + (s.reg y).toNat > 255 then 1 else 0) →
    ∃ t, exec (.addReg x y) s = .next t ∧
      (x ≠ 15 → (t.reg 15).toNat = c) ∧
      (t.reg x).toNat = ((if x = 15 then c else (s.reg x).toNat) + (if y = 15 then c else (s.reg y).toNat)) % 256 ∧
      (∀ r, r ≠ x → r ≠ 15 → t.reg r = s.reg r) ∧ t.pc = s.pc + 2 ∧ UnchangedBut [.pc, .regs] s t

/-- `8xy5`: 1 goes to `VF` first when `V[x]` is strictly greater, else 0, and the difference modulo 256 of the registers as
they then stand to `V[x]` (decisions D5 and D6). -/
def Obligations.SubWritesNoBorrowThenDifference : Prop :=
  ∀ (x y : Reg) (s : State) (c : Nat), c = (if (s.reg x).toNat > (s.reg y).toNat then 1 else 0) →
    ∃ t, exec (.sub x y) s = .next t ∧
      (x ≠ 15 → (t.reg 15).toNat = c) ∧
      (t.reg x).toNat =
        ((if x = 15 then c else (s.reg x).toNat) + 256 - (if y = 15 then c else (s.reg y).toNat)) % 256 ∧
      (∀ r, r ≠ x → r ≠ 15 → t.reg r = s.reg r) ∧ t.pc = s.pc + 2 ∧ UnchangedBut [.pc, .regs] s t

/-! ### Index register and memory transfer -/

/-- R120: `Annn` sets `I` to `nnn`. -/
def Obligations.LdISetsTheIndex : Prop :=
  ∀ nnn : Addr, decode (BitVec.ofNat 16 (0xA000 + nnn.toNat)) = some (.ldI nnn) ∧
    ∀ s : State, ∃ t, exec (.ldI nnn) s = .next t ∧ WritesIndex s t nnn.toNat

/-- `Fx1E` adds `V[x]` to `I` exactly, without a flag (decision D23); a sum above 0xFFFF raises `ArithmeticOverflow`
(decision D7) and nothing but the latch changes, which is a next state by decision D1 and the model's choice (log 1). -/
def Obligations.AddIAddsOrOverflows : Prop :=
  ∀ (x : Reg) (s : State),
    (s.index.toNat + (s.reg x).toNat ≤ 0xFFFF →
      ∃ t, exec (.addI x) s = .next t ∧ WritesIndex s t (s.index.toNat + (s.reg x).toNat)) ∧
    (0xFFFF < s.index.toNat + (s.reg x).toNat →
      exec (.addI x) s = .next (s.takeFault (.arithmeticOverflow s.index (s.reg x))))

/-- R122: `Fx29` sets `I` to five times the low nibble of `V[x]`. -/
def Obligations.LdFPointsAtTheGlyph : Prop :=
  ∀ x : Reg, decode (BitVec.ofNat 16 (0xF029 + x.val * 0x100)) = some (.ldF x) ∧
    ∀ s : State, ∃ t, exec (.ldF x) s = .next t ∧ WritesIndex s t (5 * ((s.reg x).toNat % 16))

/-- `Fx55` stores `V[0]` to `V[x-1]` at `I` onward and changes nothing else, `I` included (decision D22), where every
address it stores to is RAM outside the font table. -/
def Obligations.LdStoreStoresTheRegistersBelowX : Prop :=
  ∀ (x : Reg) (s : State), (∀ i, i < x.val → 80 ≤ s.effAddr i ∧ s.effAddr i < 4096) →
    ∃ t, exec (.ldStore x) s = .next t ∧
      (∀ r : Reg, r.val < x.val → t.byte (s.effAddr r.val) = s.reg r) ∧
      (∀ a, (∀ i, i < x.val → a ≠ s.effAddr i) → t.byte a = s.byte a) ∧
      t.pc = s.pc + 2 ∧ UnchangedBut [.pc, .ram] s t

/-- `Fx55` raises at its first address outside RAM or in the font table (decisions D8, D11, D21), and stores nothing. The
entry is a next state by decision D1 and the model's choice (log 1). -/
def Obligations.LdStoreFaultsAtTheFirstBadAddress : Prop :=
  ∀ (x : Reg) (s : State) (i : Nat), i < x.val → (∀ j, j < i → 80 ≤ s.effAddr j ∧ s.effAddr j < 4096) →
    (4096 ≤ s.effAddr i → exec (.ldStore x) s = .next (s.takeFault (.outOfBounds .ram (s.effAddr i)))) ∧
    (s.effAddr i < 80 → exec (.ldStore x) s = .next (s.takeFault (.fontRegionWrite (s.effAddr i))))

/-- `Fx65` loads `V[0]` to `V[x-1]` from `I` onward and changes nothing else, `I` included (decision D22), where every
address it reads is RAM. -/
def Obligations.LdLoadLoadsTheRegistersBelowX : Prop :=
  ∀ (x : Reg) (s : State), (∀ i, i < x.val → s.effAddr i < 4096) →
    ∃ t, exec (.ldLoad x) s = .next t ∧
      (∀ r : Reg, r.val < x.val → t.reg r = s.byte (s.effAddr r.val)) ∧
      (∀ r : Reg, x.val ≤ r.val → t.reg r = s.reg r) ∧
      t.pc = s.pc + 2 ∧ UnchangedBut [.pc, .regs] s t

/-- `Fx65` raises at its first address outside RAM (decisions D11, D21), and loads nothing. The entry is a next state by
decision D1 and the model's choice (log 1). -/
def Obligations.LdLoadFaultsAtTheFirstBadAddress : Prop :=
  ∀ (x : Reg) (s : State) (i : Nat), i < x.val → (∀ j, j < i → s.effAddr j < 4096) → 4096 ≤ s.effAddr i →
    exec (.ldLoad x) s = .next (s.takeFault (.outOfBounds .ram (s.effAddr i)))

/-- Storing `V[0]` to `V[x-1]` and reloading the range restores them, whatever happened to the registers between. -/
def Obligations.StoreThenLoadRestoresTheRegisters : Prop :=
  ∀ (x : Reg) (s t u : State), (∀ i, i < x.val → 80 ≤ s.effAddr i ∧ s.effAddr i < 4096) →
    exec (.ldStore x) s = .next t → u.index = t.index → (∀ a, u.byte a = t.byte a) →
    ∃ v, exec (.ldLoad x) u = .next v ∧ ∀ r : Reg, r.val < x.val → v.reg r = s.reg r

/-- A word stored by `Fx55` is the word executed where it was stored (the spec derives this from its sequential
memory). -/
def Obligations.StoredWordIsExecuted : Prop :=
  ∀ (x : Reg) (s t : State) (i : Instr), s.fault = none → 2 ≤ x.val →
    (∀ j, j < x.val → 80 ≤ s.effAddr j ∧ s.effAddr j < 4096) → exec (.ldStore x) s = .next t →
    decode (s.reg 0 ++ s.reg 1) = some i → step (t.setPc s.index) = exec i (t.setPc s.index)

/-! ### Display -/

/-- R47: `DispRead` and `DispWrite` raise at 2048 and above; below, a write sets its one pixel. -/
def Obligations.DisplayAccessIsChecked : Prop :=
  ∀ (s : State) (p : Nat) (b : Bool),
    (2048 ≤ p → s.dispRead p = .error (.outOfBounds .display p) ∧ s.dispWrite p b = .error (.outOfBounds .display p)) ∧
    (p < 2048 → s.dispRead p = .ok (s.pixel p) ∧
      ∃ t, s.dispWrite p b = .ok t ∧ t.pixel p = b ∧ (∀ q, q ≠ p → t.pixel q = s.pixel q) ∧
        UnchangedBut [.display] s t)

/-- R140: `00E0` clears every pixel and leaves `VF`. -/
def Obligations.ClsClearsTheDisplay : Prop :=
  decode 0x00E0 = some .cls ∧
  ∀ s : State, ∃ t, exec .cls s = .next t ∧ (∀ p, p < 2048 → t.display[p]? = some false) ∧ t.pc = s.pc + 2 ∧
    UnchangedBut [.pc, .display] s t

/-- `Dxyn` inside RAM and the display: row r toggles the pixel at 64 * V[y] + V[x] + r where the byte at `I + r` is 0xFF,
and `VF` says whether the last row turned a pixel off; with no row `VF` stays. The coordinates are those before the
instruction (decision D9), the draw is by byte equality (D15). -/
def Obligations.DrwTogglesByByteEquality : Prop :=
  ∀ (x y : Reg) (n : Nat) (s : State),
    (∀ r, r < n → s.effAddr r < 4096 ∧ pixelBase (s.reg x) (s.reg y) + r < 2048) →
    ∃ t, exec (.drw x y n) s = .next t ∧
      (∀ r, r < n → t.pixel (64 * (s.reg y).toNat + (s.reg x).toNat + r) =
        (if s.byte (s.effAddr r) = 0xFF then !s.pixel (64 * (s.reg y).toNat + (s.reg x).toNat + r)
          else s.pixel (64 * (s.reg y).toNat + (s.reg x).toNat + r))) ∧
      (∀ p, (∀ r, r < n → p ≠ 64 * (s.reg y).toNat + (s.reg x).toNat + r) → t.pixel p = s.pixel p) ∧
      (n = 0 → t.reg 15 = s.reg 15) ∧
      (∀ m, n = m + 1 → t.reg 15 =
        (if s.byte (s.effAddr m) = 0xFF ∧ s.pixel (64 * (s.reg y).toNat + (s.reg x).toNat + m) = true then 1 else 0)) ∧
      (∀ r, r ≠ 15 → t.reg r = s.reg r) ∧ t.pc = s.pc + 2 ∧ UnchangedBut [.pc, .regs, .display] s t

/-- `Dxyn` raises at its first row whose byte is outside RAM or whose pixel is outside the display, RAM first, whatever the
byte (decisions D10, D11, D21), and draws nothing. The entry is a next state by decision D1 and the model's choice
(log 1). -/
def Obligations.DrwFaultsAtTheFirstBadRow : Prop :=
  ∀ (x y : Reg) (n : Nat) (s : State) (r : Nat), r < n →
    (∀ q, q < r → s.effAddr q < 4096 ∧ pixelBase (s.reg x) (s.reg y) + q < 2048) →
    (4096 ≤ s.effAddr r → exec (.drw x y n) s = .next (s.takeFault (.outOfBounds .ram (s.effAddr r)))) ∧
    (s.effAddr r < 4096 → 2048 ≤ pixelBase (s.reg x) (s.reg y) + r →
      exec (.drw x y n) s = .next (s.takeFault (.outOfBounds .display (pixelBase (s.reg x) (s.reg y) + r))))

/-- Drawing a glyph of the default `FONT` (log 16, decision D16) changes no pixel and leaves `VF` 0. -/
def Obligations.DrawingAGlyphChangesNoPixel : Prop :=
  ∀ (x y : Reg) (n d : Nat) (s : State), (∀ a, a < 80 → s.byte a = fontByte a) → d < 16 → s.index.toNat = 5 * d →
    1 ≤ n → n ≤ 5 → pixelBase (s.reg x) (s.reg y) + n ≤ 2048 →
    ∃ t, exec (.drw x y n) s = .next t ∧ (∀ p, t.pixel p = s.pixel p) ∧ t.reg 15 = 0

/-! ### RAM access -/

/-- `MemRead` of one byte and `MemWrite`: the bound, then the font table (decisions D8, D21); inside, a write sets its one
byte. -/
def Obligations.RamAccessIsChecked : Prop :=
  ∀ (s : State) (a : Nat) (v : Byte),
    (4096 ≤ a → s.memRead a = .error (.outOfBounds .ram a) ∧ s.memWrite a v = .error (.outOfBounds .ram a)) ∧
    (a < 4096 → s.memRead a = .ok (s.byte a)) ∧
    (a < 80 → s.memWrite a v = .error (.fontRegionWrite a)) ∧
    (80 ≤ a → a < 4096 → ∃ t, s.memWrite a v = .ok t ∧ t.byte a = v ∧ (∀ b, b ≠ a → t.byte b = s.byte b) ∧
      UnchangedBut [.ram] s t)

/-! ### Host transactions -/

/-- `load` of at most 3584 bytes copies them to 0x200 onward and leaves every other byte and element; `PC` goes to 0x200
only under the other value of the parameter `LOAD_SETS_PC` (decision D4, log 4). -/
def Obligations.LoadCopiesTheProgram : Prop :=
  ∀ (b : Bool) (data : List Byte) (s : State), s.fault = none → data.length ≤ 3584 →
    ∃ t, loadWith b data s = (t, .ok) ∧
      (∀ i, i < data.length → t.byte (0x200 + i) = data.getD i 0) ∧
      (∀ a, (a < 0x200 ∨ 0x200 + data.length ≤ a) → t.byte a = s.byte a) ∧
      t.pc = (if b = true then 0x200 else s.pc) ∧ UnchangedBut [.ram, .pc] s t

/-- `load` as a transaction leaves `PC` (decision D4, log 4); after reset both values of the parameter give one state. -/
def Obligations.LoadLeavesPc : Prop :=
  (∀ (data : List Byte) (s : State), ((Txn.load data).after s).pc = s.pc) ∧
  (∀ (b : Bool) (data : List Byte), loadWith b data State.reset = (Txn.load data).run State.reset)

/-- `load` of more than 3584 bytes raises `OutOfBounds(RAM, 0x1000)` and writes no byte; the latch is decision D14
(log 14), and that nothing else changes is decision D1 (log 1). -/
def Obligations.LoadTooLongFaults : Prop :=
  ∀ (data : List Byte) (s : State), s.fault = none → 3584 < data.length →
    (Txn.load data).run s = (s.takeFault (.outOfBounds .ram 0x1000), .faulted (.outOfBounds .ram 0x1000))

/-- `keypress` (R162) is refused with a fault latched (R154, decision D2, log 2), raises `KeyIndexOutOfRange` at 16 and
above, which latches it (R156, decision D14, log 14; the record is D21) and changes nothing else (decision D1, log 1), and
otherwise sets the one key. -/
def Obligations.KeypressSetsOneKey : Prop :=
  ∀ (k : Nat) (b : Bool) (s : State),
    (∀ f, s.fault = some f → (Txn.keypress k b).run s = (s, .faulted f)) ∧
    (s.fault = none → 16 ≤ k →
      (Txn.keypress k b).run s = (s.takeFault (.keyIndexOutOfRange k), .faulted (.keyIndexOutOfRange k))) ∧
    (s.fault = none → k < 16 → ∃ t, (Txn.keypress k b).run s = (t, .ok) ∧
      t.keys[k]? = some b ∧ (∀ j, j ≠ k → t.keys[j]? = s.keys[j]?) ∧ UnchangedBut [.keys] s t)

/-- `tick_timers` decrements each timer that is not zero, and responds true exactly when `ST` goes from 1 to 0 (decision
D13). -/
def Obligations.TickTimersCountsDown : Prop :=
  ∀ s : State, s.fault = none →
    ∃ t, Txn.tickTimers.run s = (t, .soundExpired (decide (s.sound.toNat = 1))) ∧
      t.delay.toNat = s.delay.toNat - 1 ∧ t.sound.toNat = s.sound.toNat - 1 ∧ UnchangedBut [.delay, .sound] s t

/-- R163: `get_display` responds with the 2048 pixels and changes nothing. -/
def Obligations.GetDisplayReadsThePixels : Prop :=
  ∀ s : State, ∃ d : Vector Bool 2048,
    Txn.getDisplay.run s = (s, .pixels d) ∧ ∀ p, p < 2048 → d[p]? = some (s.pixel p)
end

