-- ==== Sys2Proof/Laws/Decode.lean ====
section
/-! SUPPORT. The fields of a word as numbers, and the fields of a word the encoder lays out (30_encoding.md R61, R63). -/

namespace Sys2Proof

theorem d1_toNat (w : Word) : (d1 w).toNat = w.toNat / 0x1000 := by
  simp [d1, BitVec.extractLsb'_toNat, Nat.shiftRight_eq_div_pow]; omega

theorem fieldX_val (w : Word) : (fieldX w).val = w.toNat / 0x100 % 16 := by
  simp [fieldX, Nat.shiftRight_eq_div_pow]

theorem fieldY_val (w : Word) : (fieldY w).val = w.toNat / 0x10 % 16 := by
  simp [fieldY, Nat.shiftRight_eq_div_pow]

theorem d4_toNat (w : Word) : (d4 w).toNat = w.toNat % 0x10 := by
  simp [d4, BitVec.extractLsb'_toNat]

theorem fieldKK_toNat (w : Word) : (fieldKK w).toNat = w.toNat % 0x100 := by
  simp [fieldKK, BitVec.extractLsb'_toNat]

theorem fieldNNN_toNat (w : Word) : (fieldNNN w).toNat = w.toNat % 0x1000 := by
  simp [fieldNNN, BitVec.extractLsb'_toNat]

/-- The fields of a word in format `NNN`. -/
theorem fields_wordNNN (op : Nat) (nnn : Addr) (hop : op < 16) :
    (d1 (wordNNN op nnn)).toNat = op ∧ fieldNNN (wordNNN op nnn) = nnn := by
  have hw : (wordNNN op nnn).toNat = op * 0x1000 + nnn.toNat := by simp [wordNNN]; omega
  refine ⟨by rw [d1_toNat, hw]; omega, BitVec.eq_of_toNat_eq ?_⟩
  rw [fieldNNN_toNat, hw]; omega

/-- The fields of a word in format `XKK`. -/
theorem fields_wordXKK (op : Nat) (x : Reg) (kk : Byte) (hop : op < 16) :
    (d1 (wordXKK op x kk)).toNat = op ∧ fieldX (wordXKK op x kk) = x ∧ fieldKK (wordXKK op x kk) = kk := by
  have hw : (wordXKK op x kk).toNat = op * 0x1000 + x.val * 0x100 + kk.toNat := by simp [wordXKK]; omega
  refine ⟨by rw [d1_toNat, hw]; omega, Fin.ext ?_, BitVec.eq_of_toNat_eq ?_⟩
  · rw [fieldX_val, hw]; omega
  · rw [fieldKK_toNat, hw]; omega

/-- The fields of a word in formats `XY` and `XYN`. -/
theorem fields_wordXYN (op : Nat) (x y : Reg) (d : Nat) (hop : op < 16) (hd : d < 16) :
    (d1 (wordXYN op x y d)).toNat = op ∧ fieldX (wordXYN op x y d) = x ∧ fieldY (wordXYN op x y d) = y ∧
      (d4 (wordXYN op x y d)).toNat = d := by
  have hw : (wordXYN op x y d).toNat = op * 0x1000 + x.val * 0x100 + y.val * 0x10 + d := by simp [wordXYN]; omega
  refine ⟨by rw [d1_toNat, hw]; omega, Fin.ext ?_, Fin.ext ?_, by rw [d4_toNat, hw]; omega⟩
  · rw [fieldX_val, hw]; omega
  · rw [fieldY_val, hw]; omega

/-- The fields of a word in format `X`. -/
theorem fields_wordX (op : Nat) (x : Reg) (low : Nat) (hop : op < 16) (hlow : low < 0x100) :
    (d1 (wordX op x low)).toNat = op ∧ fieldX (wordX op x low) = x ∧ fieldKK (wordX op x low) = BitVec.ofNat 8 low := by
  have hw : (wordX op x low).toNat = op * 0x1000 + x.val * 0x100 + low := by simp [wordX]; omega
  refine ⟨by rw [d1_toNat, hw]; omega, Fin.ext ?_, BitVec.eq_of_toNat_eq ?_⟩
  · rw [fieldX_val, hw]; omega
  · rw [fieldKK_toNat, hw]; simp; omega

/-! ### Words under the masks of the opcode table -/

/-- A word under a mask of whole nibbles keeps those nibbles. -/
theorem and_nibbles (w : Word) (f g h : Bool) :
    w &&& (0xF#4 ++ (if f then 0xF#4 else 0#4) ++ (if g then 0xF#4 else 0#4) ++ (if h then 0xF#4 else 0#4) : Word) =
      (d1 w ++ (if f then w.extractLsb' 8 4 else 0#4) ++ (if g then w.extractLsb' 4 4 else 0#4) ++
        (if h then d4 w else 0#4) : Word) := by
  apply BitVec.eq_of_getLsbD_eq
  intro i hi
  simp only [d1, d4]
  cases f <;> cases g <;> cases h <;>
    (simp only [if_true, if_false, Bool.false_eq_true, BitVec.getLsbD_and, BitVec.getLsbD_append,
        BitVec.getLsbD_extractLsb', BitVec.getLsbD_zero]
     interval_cases i <;> simp)

theorem toNat_append_add {n m : Nat} (x : BitVec n) (y : BitVec m) : (x ++ y).toNat = x.toNat * 2 ^ m + y.toNat := by
  rw [BitVec.toNat_append, ← Nat.shiftLeft_add_eq_or_of_lt y.isLt, Nat.shiftLeft_eq]

theorem toNat_and_F000 (w : Word) : (w &&& 0xF000).toNat = w.toNat / 0x1000 * 0x1000 := by
  have h := congrArg BitVec.toNat (and_nibbles w false false false)
  simp only [toNat_append_add, Bool.false_eq_true, if_false, d1_toNat] at h
  exact h.trans (by simp; omega)

theorem toNat_and_F00F (w : Word) : (w &&& 0xF00F).toNat = w.toNat / 0x1000 * 0x1000 + w.toNat % 0x10 := by
  have h := congrArg BitVec.toNat (and_nibbles w false false true)
  simp only [toNat_append_add, Bool.false_eq_true, if_false, if_true, d1_toNat, d4_toNat] at h
  exact h.trans (by simp; omega)

theorem toNat_and_F0FF (w : Word) : (w &&& 0xF0FF).toNat = w.toNat / 0x1000 * 0x1000 + w.toNat % 0x100 := by
  have h := congrArg BitVec.toNat (and_nibbles w false true true)
  have hy : (w.extractLsb' 4 4).toNat = w.toNat / 0x10 % 16 := fieldY_val w
  simp only [toNat_append_add, Bool.false_eq_true, if_false, if_true, d1_toNat, d4_toNat, hy] at h
  exact h.trans (by simp; omega)

/-- A word belongs to a row when the number of its masked bits is the pattern's. -/
theorem Row.holds_iff (r : Row) (w : Word) : r.holds w = true ↔ (w &&& r.mask).toNat = r.pattern.toNat := by
  rw [Row.holds, decide_eq_true_iff, BitVec.toNat_inj]

end Sys2Proof
end

