-- ==== Sys2Proof/Laws/State.lean ====
section
/-! SUPPORT. The small laws of the state's updates: for each update and each field or reading, what it holds after. The
proofs cite these and never unfold a record update. -/

namespace Sys2Proof.Machine

/-! ### setReg -/

@[simp] theorem State.setReg_regs (s : State) (r : Reg) (v : Byte) : (s.setReg r v).regs = s.regs.set r.val v := rfl
@[simp] theorem State.setReg_index (s : State) (r : Reg) (v : Byte) : (s.setReg r v).index = s.index := rfl
@[simp] theorem State.setReg_pc (s : State) (r : Reg) (v : Byte) : (s.setReg r v).pc = s.pc := rfl
@[simp] theorem State.setReg_stack (s : State) (r : Reg) (v : Byte) : (s.setReg r v).stack = s.stack := rfl
@[simp] theorem State.setReg_sp (s : State) (r : Reg) (v : Byte) : (s.setReg r v).sp = s.sp := rfl
@[simp] theorem State.setReg_delay (s : State) (r : Reg) (v : Byte) : (s.setReg r v).delay = s.delay := rfl
@[simp] theorem State.setReg_sound (s : State) (r : Reg) (v : Byte) : (s.setReg r v).sound = s.sound := rfl
@[simp] theorem State.setReg_keys (s : State) (r : Reg) (v : Byte) : (s.setReg r v).keys = s.keys := rfl
@[simp] theorem State.setReg_mem (s : State) (r : Reg) (v : Byte) : (s.setReg r v).mem = s.mem := rfl
@[simp] theorem State.setReg_display (s : State) (r : Reg) (v : Byte) : (s.setReg r v).display = s.display := rfl
@[simp] theorem State.setReg_fault (s : State) (r : Reg) (v : Byte) : (s.setReg r v).fault = s.fault := rfl
@[simp] theorem State.setReg_byte (s : State) (r : Reg) (v : Byte) (a : Nat) : (s.setReg r v).byte a = s.byte a := rfl
@[simp] theorem State.setReg_pixel (s : State) (r : Reg) (v : Byte) (p : Nat) : (s.setReg r v).pixel p = s.pixel p := rfl
@[simp] theorem State.setReg_slot (s : State) (r : Reg) (v : Byte) (j : Nat) : (s.setReg r v).slot j = s.slot j := rfl
@[simp] theorem State.setReg_effAddr (s : State) (r : Reg) (v : Byte) (k : Nat) : (s.setReg r v).effAddr k = s.effAddr k := rfl

/-! ### setFlag -/

@[simp] theorem State.setFlag_regs (s : State) (v : Byte) : (s.setFlag v).regs = s.regs.set 15 v := rfl
@[simp] theorem State.setFlag_index (s : State) (v : Byte) : (s.setFlag v).index = s.index := rfl
@[simp] theorem State.setFlag_pc (s : State) (v : Byte) : (s.setFlag v).pc = s.pc := rfl
@[simp] theorem State.setFlag_stack (s : State) (v : Byte) : (s.setFlag v).stack = s.stack := rfl
@[simp] theorem State.setFlag_sp (s : State) (v : Byte) : (s.setFlag v).sp = s.sp := rfl
@[simp] theorem State.setFlag_delay (s : State) (v : Byte) : (s.setFlag v).delay = s.delay := rfl
@[simp] theorem State.setFlag_sound (s : State) (v : Byte) : (s.setFlag v).sound = s.sound := rfl
@[simp] theorem State.setFlag_keys (s : State) (v : Byte) : (s.setFlag v).keys = s.keys := rfl
@[simp] theorem State.setFlag_mem (s : State) (v : Byte) : (s.setFlag v).mem = s.mem := rfl
@[simp] theorem State.setFlag_display (s : State) (v : Byte) : (s.setFlag v).display = s.display := rfl
@[simp] theorem State.setFlag_fault (s : State) (v : Byte) : (s.setFlag v).fault = s.fault := rfl
@[simp] theorem State.setFlag_byte (s : State) (v : Byte) (a : Nat) : (s.setFlag v).byte a = s.byte a := rfl
@[simp] theorem State.setFlag_pixel (s : State) (v : Byte) (p : Nat) : (s.setFlag v).pixel p = s.pixel p := rfl
@[simp] theorem State.setFlag_slot (s : State) (v : Byte) (j : Nat) : (s.setFlag v).slot j = s.slot j := rfl
@[simp] theorem State.setFlag_effAddr (s : State) (v : Byte) (k : Nat) : (s.setFlag v).effAddr k = s.effAddr k := rfl

/-! ### setIndex -/

@[simp] theorem State.setIndex_regs (s : State) (v : Word) : (s.setIndex v).regs = s.regs := rfl
@[simp] theorem State.setIndex_index (s : State) (v : Word) : (s.setIndex v).index = v := rfl
@[simp] theorem State.setIndex_pc (s : State) (v : Word) : (s.setIndex v).pc = s.pc := rfl
@[simp] theorem State.setIndex_stack (s : State) (v : Word) : (s.setIndex v).stack = s.stack := rfl
@[simp] theorem State.setIndex_sp (s : State) (v : Word) : (s.setIndex v).sp = s.sp := rfl
@[simp] theorem State.setIndex_delay (s : State) (v : Word) : (s.setIndex v).delay = s.delay := rfl
@[simp] theorem State.setIndex_sound (s : State) (v : Word) : (s.setIndex v).sound = s.sound := rfl
@[simp] theorem State.setIndex_keys (s : State) (v : Word) : (s.setIndex v).keys = s.keys := rfl
@[simp] theorem State.setIndex_mem (s : State) (v : Word) : (s.setIndex v).mem = s.mem := rfl
@[simp] theorem State.setIndex_display (s : State) (v : Word) : (s.setIndex v).display = s.display := rfl
@[simp] theorem State.setIndex_fault (s : State) (v : Word) : (s.setIndex v).fault = s.fault := rfl
@[simp] theorem State.setIndex_reg (s : State) (v : Word) (q : Reg) : (s.setIndex v).reg q = s.reg q := rfl
@[simp] theorem State.setIndex_byte (s : State) (v : Word) (a : Nat) : (s.setIndex v).byte a = s.byte a := rfl
@[simp] theorem State.setIndex_pixel (s : State) (v : Word) (p : Nat) : (s.setIndex v).pixel p = s.pixel p := rfl
@[simp] theorem State.setIndex_slot (s : State) (v : Word) (j : Nat) : (s.setIndex v).slot j = s.slot j := rfl

/-! ### setPc -/

@[simp] theorem State.setPc_regs (s : State) (v : Word) : (s.setPc v).regs = s.regs := rfl
@[simp] theorem State.setPc_index (s : State) (v : Word) : (s.setPc v).index = s.index := rfl
@[simp] theorem State.setPc_pc (s : State) (v : Word) : (s.setPc v).pc = v := rfl
@[simp] theorem State.setPc_stack (s : State) (v : Word) : (s.setPc v).stack = s.stack := rfl
@[simp] theorem State.setPc_sp (s : State) (v : Word) : (s.setPc v).sp = s.sp := rfl
@[simp] theorem State.setPc_delay (s : State) (v : Word) : (s.setPc v).delay = s.delay := rfl
@[simp] theorem State.setPc_sound (s : State) (v : Word) : (s.setPc v).sound = s.sound := rfl
@[simp] theorem State.setPc_keys (s : State) (v : Word) : (s.setPc v).keys = s.keys := rfl
@[simp] theorem State.setPc_mem (s : State) (v : Word) : (s.setPc v).mem = s.mem := rfl
@[simp] theorem State.setPc_display (s : State) (v : Word) : (s.setPc v).display = s.display := rfl
@[simp] theorem State.setPc_fault (s : State) (v : Word) : (s.setPc v).fault = s.fault := rfl
@[simp] theorem State.setPc_reg (s : State) (v : Word) (q : Reg) : (s.setPc v).reg q = s.reg q := rfl
@[simp] theorem State.setPc_byte (s : State) (v : Word) (a : Nat) : (s.setPc v).byte a = s.byte a := rfl
@[simp] theorem State.setPc_pixel (s : State) (v : Word) (p : Nat) : (s.setPc v).pixel p = s.pixel p := rfl
@[simp] theorem State.setPc_slot (s : State) (v : Word) (j : Nat) : (s.setPc v).slot j = s.slot j := rfl
@[simp] theorem State.setPc_effAddr (s : State) (v : Word) (k : Nat) : (s.setPc v).effAddr k = s.effAddr k := rfl

/-! ### advance -/

@[simp] theorem State.advance_regs (s : State) : (s.advance).regs = s.regs := rfl
@[simp] theorem State.advance_index (s : State) : (s.advance).index = s.index := rfl
@[simp] theorem State.advance_pc (s : State) : (s.advance).pc = s.pc + 2 := rfl
@[simp] theorem State.advance_stack (s : State) : (s.advance).stack = s.stack := rfl
@[simp] theorem State.advance_sp (s : State) : (s.advance).sp = s.sp := rfl
@[simp] theorem State.advance_delay (s : State) : (s.advance).delay = s.delay := rfl
@[simp] theorem State.advance_sound (s : State) : (s.advance).sound = s.sound := rfl
@[simp] theorem State.advance_keys (s : State) : (s.advance).keys = s.keys := rfl
@[simp] theorem State.advance_mem (s : State) : (s.advance).mem = s.mem := rfl
@[simp] theorem State.advance_display (s : State) : (s.advance).display = s.display := rfl
@[simp] theorem State.advance_fault (s : State) : (s.advance).fault = s.fault := rfl
@[simp] theorem State.advance_reg (s : State) (q : Reg) : (s.advance).reg q = s.reg q := rfl
@[simp] theorem State.advance_byte (s : State) (a : Nat) : (s.advance).byte a = s.byte a := rfl
@[simp] theorem State.advance_pixel (s : State) (p : Nat) : (s.advance).pixel p = s.pixel p := rfl
@[simp] theorem State.advance_slot (s : State) (j : Nat) : (s.advance).slot j = s.slot j := rfl
@[simp] theorem State.advance_effAddr (s : State) (k : Nat) : (s.advance).effAddr k = s.effAddr k := rfl

/-! ### takeFault -/

@[simp] theorem State.takeFault_regs (s : State) (f : Fault) : (s.takeFault f).regs = s.regs := rfl
@[simp] theorem State.takeFault_index (s : State) (f : Fault) : (s.takeFault f).index = s.index := rfl
@[simp] theorem State.takeFault_pc (s : State) (f : Fault) : (s.takeFault f).pc = s.pc := rfl
@[simp] theorem State.takeFault_stack (s : State) (f : Fault) : (s.takeFault f).stack = s.stack := rfl
@[simp] theorem State.takeFault_sp (s : State) (f : Fault) : (s.takeFault f).sp = s.sp := rfl
@[simp] theorem State.takeFault_delay (s : State) (f : Fault) : (s.takeFault f).delay = s.delay := rfl
@[simp] theorem State.takeFault_sound (s : State) (f : Fault) : (s.takeFault f).sound = s.sound := rfl
@[simp] theorem State.takeFault_keys (s : State) (f : Fault) : (s.takeFault f).keys = s.keys := rfl
@[simp] theorem State.takeFault_mem (s : State) (f : Fault) : (s.takeFault f).mem = s.mem := rfl
@[simp] theorem State.takeFault_display (s : State) (f : Fault) : (s.takeFault f).display = s.display := rfl
@[simp] theorem State.takeFault_fault (s : State) (f : Fault) : (s.takeFault f).fault = some f := rfl
@[simp] theorem State.takeFault_reg (s : State) (f : Fault) (q : Reg) : (s.takeFault f).reg q = s.reg q := rfl
@[simp] theorem State.takeFault_byte (s : State) (f : Fault) (a : Nat) : (s.takeFault f).byte a = s.byte a := rfl
@[simp] theorem State.takeFault_pixel (s : State) (f : Fault) (p : Nat) : (s.takeFault f).pixel p = s.pixel p := rfl
@[simp] theorem State.takeFault_slot (s : State) (f : Fault) (j : Nat) : (s.takeFault f).slot j = s.slot j := rfl
@[simp] theorem State.takeFault_effAddr (s : State) (f : Fault) (k : Nat) : (s.takeFault f).effAddr k = s.effAddr k := rfl

/-! ### clearDisplay -/

@[simp] theorem State.clearDisplay_regs (s : State) : (s.clearDisplay).regs = s.regs := rfl
@[simp] theorem State.clearDisplay_index (s : State) : (s.clearDisplay).index = s.index := rfl
@[simp] theorem State.clearDisplay_pc (s : State) : (s.clearDisplay).pc = s.pc := rfl
@[simp] theorem State.clearDisplay_stack (s : State) : (s.clearDisplay).stack = s.stack := rfl
@[simp] theorem State.clearDisplay_sp (s : State) : (s.clearDisplay).sp = s.sp := rfl
@[simp] theorem State.clearDisplay_delay (s : State) : (s.clearDisplay).delay = s.delay := rfl
@[simp] theorem State.clearDisplay_sound (s : State) : (s.clearDisplay).sound = s.sound := rfl
@[simp] theorem State.clearDisplay_keys (s : State) : (s.clearDisplay).keys = s.keys := rfl
@[simp] theorem State.clearDisplay_mem (s : State) : (s.clearDisplay).mem = s.mem := rfl
@[simp] theorem State.clearDisplay_display (s : State) : (s.clearDisplay).display = Vector.replicate 2048 false := rfl
@[simp] theorem State.clearDisplay_fault (s : State) : (s.clearDisplay).fault = s.fault := rfl
@[simp] theorem State.clearDisplay_reg (s : State) (q : Reg) : (s.clearDisplay).reg q = s.reg q := rfl
@[simp] theorem State.clearDisplay_byte (s : State) (a : Nat) : (s.clearDisplay).byte a = s.byte a := rfl
@[simp] theorem State.clearDisplay_slot (s : State) (j : Nat) : (s.clearDisplay).slot j = s.slot j := rfl
@[simp] theorem State.clearDisplay_effAddr (s : State) (k : Nat) : (s.clearDisplay).effAddr k = s.effAddr k := rfl

/-! ### dropSlot -/

@[simp] theorem State.dropSlot_regs (s : State) : (s.dropSlot).regs = s.regs := rfl
@[simp] theorem State.dropSlot_index (s : State) : (s.dropSlot).index = s.index := rfl
@[simp] theorem State.dropSlot_pc (s : State) : (s.dropSlot).pc = s.pc := rfl
@[simp] theorem State.dropSlot_stack (s : State) : (s.dropSlot).stack = s.stack := rfl
@[simp] theorem State.dropSlot_delay (s : State) : (s.dropSlot).delay = s.delay := rfl
@[simp] theorem State.dropSlot_sound (s : State) : (s.dropSlot).sound = s.sound := rfl
@[simp] theorem State.dropSlot_keys (s : State) : (s.dropSlot).keys = s.keys := rfl
@[simp] theorem State.dropSlot_mem (s : State) : (s.dropSlot).mem = s.mem := rfl
@[simp] theorem State.dropSlot_display (s : State) : (s.dropSlot).display = s.display := rfl
@[simp] theorem State.dropSlot_fault (s : State) : (s.dropSlot).fault = s.fault := rfl
@[simp] theorem State.dropSlot_reg (s : State) (q : Reg) : (s.dropSlot).reg q = s.reg q := rfl
@[simp] theorem State.dropSlot_byte (s : State) (a : Nat) : (s.dropSlot).byte a = s.byte a := rfl
@[simp] theorem State.dropSlot_pixel (s : State) (p : Nat) : (s.dropSlot).pixel p = s.pixel p := rfl
@[simp] theorem State.dropSlot_slot (s : State) (j : Nat) : (s.dropSlot).slot j = s.slot j := rfl
@[simp] theorem State.dropSlot_effAddr (s : State) (k : Nat) : (s.dropSlot).effAddr k = s.effAddr k := rfl

/-! ### The updated readings -/

/-- A register after a register write. -/
theorem State.setReg_reg (s : State) (r q : Reg) (v : Byte) :
    (s.setReg r v).reg q = if q = r then v else s.reg q := by
  unfold State.reg State.setReg
  rw [Vector.getElem_set]
  by_cases h : q = r
  · simp [h]
  · rw [if_neg (fun e => h (Fin.ext e.symm)), if_neg h]

@[simp] theorem State.setReg_reg_self (s : State) (r : Reg) (v : Byte) : (s.setReg r v).reg r = v := by
  simp [State.setReg_reg]

/-- A register after a flag write. -/
theorem State.setFlag_reg (s : State) (q : Reg) (v : Byte) :
    (s.setFlag v).reg q = if q = 15 then v else s.reg q := s.setReg_reg 15 q v

@[simp] theorem State.setFlag_reg_self (s : State) (v : Byte) : (s.setFlag v).reg 15 = v := by
  simp [State.setFlag_reg]

@[simp] theorem State.setIndex_effAddr (s : State) (v : Word) (k : Nat) :
    (s.setIndex v).effAddr k = v.toNat + k := rfl

@[simp] theorem State.dropSlot_sp (s : State) : s.dropSlot.sp.val = s.sp.val - 1 := rfl

@[simp] theorem State.clearDisplay_pixel (s : State) (p : Nat) : s.clearDisplay.pixel p = false := by
  simp only [State.pixel, State.clearDisplay, Vector.getElem?_replicate]; split <;> rfl

/-! ### reset -/

@[simp] theorem State.reset_pc : State.reset.pc = 0x200 := rfl
@[simp] theorem State.reset_index : State.reset.index = 0 := rfl
@[simp] theorem State.reset_sp : State.reset.sp = 0 := rfl
@[simp] theorem State.reset_delay : State.reset.delay = 0 := rfl
@[simp] theorem State.reset_sound : State.reset.sound = 0 := rfl
@[simp] theorem State.reset_mem : State.reset.mem = [] := rfl
@[simp] theorem State.reset_fault : State.reset.fault = none := rfl
@[simp] theorem State.reset_byte (a : Nat) : State.reset.byte a = resetByte a := rfl

@[simp] theorem State.reset_reg (r : Reg) : State.reset.reg r = 0 := by simp [State.reg, State.reset]
@[simp] theorem State.reset_slot (j : Nat) : State.reset.slot j = 0 := by
  simp only [State.slot, State.reset, Vector.getElem?_replicate]; split <;> rfl
@[simp] theorem State.reset_pixel (p : Nat) : State.reset.pixel p = false := by
  simp only [State.pixel, State.reset, Vector.getElem?_replicate]; split <;> rfl

end Sys2Proof.Machine
end

