-- ==== Sys2Proof/Laws/Memory.lean ====
section
/-! SUPPORT. The laws of RAM: a write reads back, leaves every other address, and keeps the canonical form. -/

namespace Sys2Proof.Machine

/-- An address with no cell reads as its reset contents. -/
theorem Memory.read_of_absent (m : Memory) (a : Nat) (h : ∀ c ∈ m, c.1 ≠ a) : m.read a = resetByte a := by
  induction m with
  | nil => rfl
  | cons c rest ih =>
    simp [Memory.read, h c List.mem_cons_self, ih (fun d hd => h d (List.mem_cons_of_mem c hd))]

theorem Memory.mem_erase (m : Memory) (a : Nat) (c : Host.Cell) : c ∈ m.erase a ↔ c ∈ m ∧ c.1 ≠ a := by
  simp [Memory.erase]

theorem Memory.read_erase (m : Memory) (a b : Nat) (h : b ≠ a) : (m.erase a).read b = m.read b := by
  induction m with
  | nil => rfl
  | cons c rest ih =>
    unfold Memory.erase at ih ⊢
    by_cases hca : c.1 = a
    · have hcb : c.1 ≠ b := fun e => h (e.symm.trans hca)
      simp [Memory.read, hca, ih, Ne.symm h]
    · simp [Memory.read, hca, ih]

theorem Memory.read_insert_other (m : Memory) (a b : Nat) (v : Byte) (h : b ≠ a) :
    (Memory.insert a v m).read b = m.read b := by
  induction m with
  | nil => simp [Memory.insert, Memory.read, Ne.symm h]
  | cons c rest ih => unfold Memory.insert; split <;> simp [Memory.read, Ne.symm h, ih]

theorem Memory.read_insert_self (m : Memory) (a : Nat) (v : Byte) (h : ∀ c ∈ m, c.1 ≠ a) :
    (Memory.insert a v m).read a = v := by
  induction m with
  | nil => simp [Memory.insert, Memory.read]
  | cons c rest ih =>
    unfold Memory.insert
    split
    · simp [Memory.read]
    · simp [Memory.read, h c List.mem_cons_self, ih (fun d hd => h d (List.mem_cons_of_mem c hd))]

/-- After a write the address reads as the byte written, and every other address as before. -/
theorem Memory.read_write (m : Memory) (a b : Nat) (v : Byte) :
    (m.write a v).read b = if b = a then v else m.read b := by
  have habsent : ∀ c ∈ m.erase a, c.1 ≠ a := fun c hc => ((Memory.mem_erase m a c).mp hc).2
  unfold Memory.write
  by_cases hb : b = a
  · subst hb
    split
    · next hv => simpa [hv] using Memory.read_of_absent _ _ habsent
    · simpa using Memory.read_insert_self _ _ _ habsent
  · rw [if_neg hb]
    split <;> simp [Memory.read_erase m a b hb, Memory.read_insert_other _ a b v hb]

theorem Memory.mem_insert (m : Memory) (a : Nat) (v : Byte) (c : Host.Cell) :
    c ∈ Memory.insert a v m ↔ c = (a, v) ∨ c ∈ m := by
  induction m with
  | nil => simp [Memory.insert]
  | cons d rest ih =>
    unfold Memory.insert
    split
    · simp
    · simp [ih, or_left_comm]

theorem Memory.insert_pairwise (m : Memory) (a : Nat) (v : Byte) (h : m.Pairwise (fun c d => c.1 < d.1))
    (habsent : ∀ c ∈ m, c.1 ≠ a) : (Memory.insert a v m).Pairwise (fun c d => c.1 < d.1) := by
  induction m with
  | nil => simp [Memory.insert]
  | cons c rest ih =>
    have hall := List.pairwise_cons.mp h
    unfold Memory.insert
    split
    · next hlt =>
      refine List.pairwise_cons.mpr ⟨fun d hd => ?_, h⟩
      rcases List.mem_cons.mp hd with rfl | hd
      · exact hlt
      · exact Nat.lt_trans hlt (hall.1 d hd)
    · next hge =>
      refine List.pairwise_cons.mpr ⟨fun d hd => ?_, ih hall.2 fun d hd => habsent d (List.mem_cons_of_mem c hd)⟩
      rcases (Memory.mem_insert rest a v d).mp hd with rfl | hd
      · exact Nat.lt_of_le_of_ne (Nat.le_of_not_lt hge) (habsent c List.mem_cons_self)
      · exact hall.1 d hd

/-- A write inside RAM keeps the canonical form. -/
theorem Memory.write_wf (m : Memory) (a : Nat) (v : Byte) (h : m.wf) (ha : a < 4096) : (m.write a v).wf := by
  have herase : (m.erase a).Pairwise (fun c d => c.1 < d.1) := h.1.filter _
  have habsent : ∀ c ∈ m.erase a, c.1 ≠ a := fun c hc => ((Memory.mem_erase m a c).mp hc).2
  have hold : ∀ c ∈ m.erase a, Memory.cellOk c := fun c hc => h.2 c ((Memory.mem_erase m a c).mp hc).1
  unfold Memory.write
  split
  · exact ⟨herase, hold⟩
  · next hv =>
    refine ⟨Memory.insert_pairwise _ a v herase habsent, fun c hc => ?_⟩
    rcases (Memory.mem_insert _ a v c).mp hc with rfl | hc
    · exact ⟨ha, hv⟩
    · exact hold c hc

/-- RAM after reset has the canonical form. -/
theorem Memory.reset_wf : State.reset.mem.wf := ⟨.nil, by simp⟩

end Sys2Proof.Machine
end

