-- ==== Sys2Proof/Laws/Ops.lean ====
section
/-! SUPPORT. One law per shared operation: what it answers, and all it can do. The proofs cite these and do not unfold the
operations. -/

namespace Sys2Proof.Machine

/-! ### The end of an instruction -/

@[simp] theorem State.commit_ok (s t : State) : s.commit (.ok t) = .next t := rfl

@[simp] theorem State.commit_error (s : State) (f : Fault) : s.commit (.error f) = .next (s.takeFault f) := rfl

/-- Everything `commit` can answer: the instruction's state, or the entry into its fault. -/
theorem State.commit_cases {s t : State} {r : Except Fault State} (h : s.commit r = .next t) :
    r = .ok t ∨ ∃ f, r = .error f ∧ t = s.takeFault f := by
  cases r with
  | ok u => exact .inl (by simpa using h)
  | error f => exact .inr ⟨f, rfl, by simpa using h.symm⟩

theorem State.commit_next (s : State) (r : Except Fault State) : ∃ t, s.commit r = .next t := by
  cases r <;> exact ⟨_, rfl⟩

/-! ### RAM -/

theorem State.memRead_eq (s : State) (a : Nat) :
    s.memRead a = if a < 4096 then .ok (s.byte a) else .error (.outOfBounds .ram a) := by
  unfold State.memRead
  by_cases h : a < 4096
  · rw [if_neg (by simp; omega), if_pos h]
  · rw [if_pos (by simp; omega), if_neg h, Nat.max_eq_left (by simp; omega)]

theorem State.memReadWord_eq (s : State) (a : Nat) :
    s.memReadWord a =
      if a + 2 ≤ 4096 then .ok (s.byte a ++ s.byte (a + 1)) else .error (.outOfBounds .ram (max a 4096)) := by
  unfold State.memReadWord
  by_cases h : a + 2 ≤ 4096
  · rw [if_neg (by simp; omega), if_pos h]; rfl
  · rw [if_pos (by simp; omega), if_neg h]

theorem State.memWrite_eq (s : State) (a : Nat) (v : Byte) :
    s.memWrite a v =
      if 4096 ≤ a then .error (.outOfBounds .ram a)
      else if a < 80 then .error (.fontRegionWrite a)
      else .ok { s with mem := s.mem.write a v } := rfl

/-- A byte after a store in RAM. -/
theorem State.byte_write (s : State) (a b : Nat) (v : Byte) :
    State.byte { s with mem := s.mem.write a v } b = if b = a then v else s.byte b :=
  Memory.read_write s.mem a b v

/-- Everything a placing can do: one byte of RAM, or nothing outside it. -/
theorem State.poke_spec (s : State) (a : Nat) (v : Byte) :
    s.poke a v = { s with mem := (s.poke a v).mem } ∧
    (∀ b, (s.poke a v).byte b = if a < 4096 ∧ b = a then v else s.byte b) ∧
    (s.mem.wf → (s.poke a v).mem.wf) := by
  unfold State.poke
  split
  · next h =>
    refine ⟨rfl, fun b => ?_, fun hwf => Memory.write_wf _ _ _ hwf h⟩
    rw [State.byte_write]; simp at h; simp [h]
  · next h => exact ⟨rfl, fun b => by simp at h; rw [if_neg (by omega)], id⟩

/-- Everything `pokeAll` can do where its bytes fit: those bytes, and no other element. -/
theorem State.pokeAll_spec (data : List Byte) (s : State) (a : Nat) (h : a + data.length ≤ 4096) :
    s.pokeAll a data = { s with mem := (s.pokeAll a data).mem } ∧
    (∀ i, i < data.length → (s.pokeAll a data).byte (a + i) = data.getD i 0) ∧
    (∀ b, (b < a ∨ a + data.length ≤ b) → (s.pokeAll a data).byte b = s.byte b) ∧
    (s.mem.wf → (s.pokeAll a data).mem.wf) := by
  induction data generalizing s a with
  | nil => exact ⟨rfl, fun i hi => absurd hi (by simp), fun _ _ => rfl, id⟩
  | cons v rest ih =>
    simp only [List.length_cons] at h
    obtain ⟨hp, hb, hw⟩ := s.poke_spec a v
    obtain ⟨h1, h2, h3, h4⟩ := ih (s.poke a v) (a + 1) (by omega)
    unfold State.pokeAll
    refine ⟨?_, fun i hi => ?_, fun b hb' => ?_, fun hwf => h4 (hw hwf)⟩
    · rw [h1, hp]
    · cases i with
      | zero => exact (h3 a (by omega)).trans ((hb a).trans (if_pos ⟨by omega, rfl⟩))
      | succ i => simpa [Nat.add_assoc, Nat.add_comm 1] using h2 i (by simpa using hi)
    · simp only [List.length_cons] at hb'
      rw [h3 b (by omega), hb, if_neg (by omega)]

/-! ### Display -/

theorem State.dispRead_eq (s : State) (p : Nat) :
    s.dispRead p = if 2048 ≤ p then .error (.outOfBounds .display p) else .ok (s.pixel p) := rfl

/-- Everything `dispWrite` can do. -/
theorem State.dispWrite_spec (s : State) (p : Nat) (b : Bool) :
    (2048 ≤ p → s.dispWrite p b = .error (.outOfBounds .display p)) ∧
    (p < 2048 → ∃ t, s.dispWrite p b = .ok t ∧ t = { s with display := t.display } ∧
      ∀ q, t.pixel q = if q = p then b else s.pixel q) := by
  unfold State.dispWrite
  refine ⟨fun h => dif_neg (by simp; omega), fun h => ⟨_, dif_pos h, rfl, fun q => ?_⟩⟩
  simp only [State.pixel, Vector.getElem?_set]
  by_cases hq : q = p
  · subst hq; simp
  · simp [hq, Ne.symm hq]

/-! ### Stack -/

/-- Everything a push can do. -/
theorem State.push_spec (s : State) (v : Word) :
    (s.sp.val = 16 → s.push v = .error (.stackOverflow 16)) ∧
    (s.sp.val < 16 → ∃ t, s.push v = .ok t ∧ t = { s with stack := t.stack, sp := t.sp } ∧
      t.sp.val = s.sp.val + 1 ∧ ∀ j, t.slot j = if j = s.sp.val then v else s.slot j) := by
  unfold State.push
  refine ⟨fun h => by rw [dif_neg (by simp; omega), h], fun h => ⟨_, dif_pos h, rfl, rfl, fun j => ?_⟩⟩
  simp only [State.slot, Vector.getElem?_set]
  by_cases hj : j = s.sp.val
  · subst hj; simp
  · simp [hj, Ne.symm hj]

/-- Everything a pop can do. -/
theorem State.popPc_spec (s : State) :
    (s.sp.val = 0 → s.popPc = .error (.stackUnderflow 0)) ∧
    (0 < s.sp.val → s.popPc = .ok (s.dropSlot.setPc (s.slot (s.sp.val - 1)))) := by
  unfold State.popPc
  exact ⟨fun h => by rw [if_pos h, h], fun h => if_neg (by omega)⟩

/-! ### The skip -/

theorem State.skipIf_eq (s : State) (c : Bool) : s.skipIf c = s.setPc (if c then s.pc + 2 else s.pc) := by
  cases c <;> rfl

/-! ### Walking the registers through RAM -/

theorem regNumber_val (r : Reg) : regNumber r.val = r := Fin.ext (Nat.mod_eq_of_lt r.isLt)

theorem regNumber_inj {i j : Nat} (hi : i < 16) (hj : j < 16) (h : regNumber i = regNumber j) : i = j := by
  have := congrArg Fin.val h
  simpa [regNumber, Fin.ofNat, Nat.mod_eq_of_lt hi, Nat.mod_eq_of_lt hj] using this

/-- The addresses `I + i` to `I + i + count - 1` are ones an instruction may store to (20_memory.md R45). -/
def State.storable (s : State) (i count : Nat) : Prop :=
  ∀ j, i ≤ j → j < i + count → 80 ≤ s.effAddr j ∧ s.effAddr j < 4096

/-- Where every address may be stored to, the registers are stored there and nothing else changes. -/
theorem State.storeRegs_ok (count : Nat) : ∀ (s : State) (i : Nat), s.storable i count →
    ∃ t, s.storeRegs count i = .ok t ∧ t = { s with mem := t.mem } ∧
      (∀ j, i ≤ j → j < i + count → t.byte (s.effAddr j) = s.reg (regNumber j)) ∧
      (∀ a, (∀ j, i ≤ j → j < i + count → a ≠ s.effAddr j) → t.byte a = s.byte a) ∧
      (s.mem.wf → t.mem.wf) := by
  induction count with
  | zero => intro s i _; exact ⟨s, rfl, rfl, fun j h1 h2 => absurd h2 (by omega), fun _ _ => rfl, id⟩
  | succ count ih =>
    intro s i h
    obtain ⟨hlo, hhi⟩ := h i (Nat.le_refl i) (by omega)
    have hstore := s.memWrite_eq (s.effAddr i) (s.reg (regNumber i))
    rw [if_neg (by omega), if_neg (by omega)] at hstore
    obtain ⟨t, h1, h2, h3, h4, h5⟩ :=
      ih { s with mem := s.mem.write (s.effAddr i) (s.reg (regNumber i)) } (i + 1)
        (fun j hj hj' => h j (by omega) (by omega))
    refine ⟨t, by simpa only [State.storeRegs, hstore] using h1, h2, fun j hj hj' => ?_, fun a ha => ?_,
      fun hwf => h5 (Memory.write_wf _ _ _ hwf hhi)⟩
    · rcases Nat.eq_or_lt_of_le hj with rfl | hlt
      · rw [h4 (s.effAddr i) (fun k hk _ => by simp only [State.effAddr]; omega), State.byte_write, if_pos rfl]
      · exact h3 j hlt (by omega)
    · rw [h4 a (fun j hj hj' => ha j (by omega) (by omega)), State.byte_write,
        if_neg (ha i (Nat.le_refl i) (by omega))]

/-- At the first address that may not be stored to, the store raises that address's fault. -/
theorem State.storeRegs_error (count : Nat) : ∀ (s : State) (i k : Nat), i ≤ k → k < i + count →
    s.storable i (k - i) →
    (4096 ≤ s.effAddr k → s.storeRegs count i = .error (.outOfBounds .ram (s.effAddr k))) ∧
    (s.effAddr k < 80 → s.storeRegs count i = .error (.fontRegionWrite (s.effAddr k))) := by
  induction count with
  | zero => intro s i k h1 h2; omega
  | succ count ih =>
    intro s i k hik hk h
    rcases Nat.eq_or_lt_of_le hik with rfl | hlt
    · have hw := s.memWrite_eq (s.effAddr i) (s.reg (regNumber i))
      refine ⟨fun hb => ?_, fun hf => ?_⟩
      · rw [if_pos hb] at hw; simp only [State.storeRegs, hw]
      · rw [if_neg (by omega), if_pos hf] at hw; simp only [State.storeRegs, hw]
    · obtain ⟨hlo, hhi⟩ := h i (Nat.le_refl i) (by omega)
      have hw := s.memWrite_eq (s.effAddr i) (s.reg (regNumber i))
      rw [if_neg (by omega), if_neg (by omega)] at hw
      simp only [State.storeRegs, hw]
      exact ih { s with mem := s.mem.write (s.effAddr i) (s.reg (regNumber i)) } (i + 1) k hlt (by omega)
        (fun j hj hj' => h j (by omega) (by omega))

/-- Everything the store can do: it stores all its registers, or raises at its first bad address. -/
theorem State.storeRegs_cases (s : State) (count i : Nat) :
    s.storable i count ∨
    ∃ k, i ≤ k ∧ k < i + count ∧ s.storable i (k - i) ∧ (4096 ≤ s.effAddr k ∨ s.effAddr k < 80) := by
  induction count with
  | zero => exact .inl fun j h1 h2 => absurd h2 (by omega)
  | succ count ih =>
    rcases ih with h | ⟨k, h1, h2, h3, h4⟩
    · by_cases hlast : 80 ≤ s.effAddr (i + count) ∧ s.effAddr (i + count) < 4096
      · refine .inl fun j hj hj' => ?_
        rcases Nat.eq_or_lt_of_le (Nat.le_of_lt_succ hj') with rfl | hlt
        · exact hlast
        · exact h j hj hlt
      · exact .inr ⟨i + count, by omega, by omega, by simpa using h, by omega⟩
    · exact .inr ⟨k, h1, by omega, h3, h4⟩

/-- The addresses `I + i` to `I + i + count - 1` are in RAM. -/
def State.loadable (s : State) (i count : Nat) : Prop := ∀ j, i ≤ j → j < i + count → s.effAddr j < 4096

/-- Where every address is in RAM, the registers are loaded from there and nothing else changes. -/
theorem State.loadRegs_ok (count : Nat) : ∀ (s : State) (i : Nat), i + count ≤ 16 → s.loadable i count →
    ∃ t, s.loadRegs count i = .ok t ∧ t = { s with regs := t.regs } ∧
      (∀ r : Reg, i ≤ r.val → r.val < i + count → t.reg r = s.byte (s.effAddr r.val)) ∧
      (∀ r : Reg, (r.val < i ∨ i + count ≤ r.val) → t.reg r = s.reg r) := by
  induction count with
  | zero => intro s i _ _; exact ⟨s, rfl, rfl, fun r h1 h2 => absurd h2 (by omega), fun _ _ => rfl⟩
  | succ count ih =>
    intro s i hb h
    have hread := s.memRead_eq (s.effAddr i)
    rw [if_pos (h i (Nat.le_refl i) (by omega))] at hread
    obtain ⟨t, h1, h2, h3, h4⟩ :=
      ih (s.setReg (regNumber i) (s.byte (s.effAddr i))) (i + 1) (by omega)
        (fun j hj hj' => h j (by omega) (by omega))
    have hval : (regNumber i).val = i := Nat.mod_eq_of_lt (by omega)
    refine ⟨t, by simpa only [State.loadRegs, hread] using h1, h2, fun r hr hr' => ?_, fun r hr => ?_⟩
    · rcases Nat.eq_or_lt_of_le hr with heq | hlt
      · have hreg : r = regNumber i := Fin.ext (by rw [hval]; exact heq.symm)
        rw [h4 r (by omega), State.setReg_reg, if_pos hreg, ← heq]
      · exact h3 r hlt (by omega)
    · have hreg : r ≠ regNumber i := fun e => by
        have := congrArg Fin.val e; rw [hval] at this; omega
      rw [h4 r (by omega), State.setReg_reg, if_neg hreg]

/-- At the first address outside RAM, the load raises it. -/
theorem State.loadRegs_error (count : Nat) : ∀ (s : State) (i k : Nat), i ≤ k → k < i + count →
    s.loadable i (k - i) → 4096 ≤ s.effAddr k →
    s.loadRegs count i = .error (.outOfBounds .ram (s.effAddr k)) := by
  induction count with
  | zero => intro s i k h1 h2; omega
  | succ count ih =>
    intro s i k hik hk h hbad
    have hread := s.memRead_eq (s.effAddr i)
    rcases Nat.eq_or_lt_of_le hik with rfl | hlt
    · rw [if_neg (by omega)] at hread; simp only [State.loadRegs, hread]
    · rw [if_pos (h i (Nat.le_refl i) (by omega))] at hread
      simp only [State.loadRegs, hread]
      exact ih (s.setReg (regNumber i) (s.byte (s.effAddr i))) (i + 1) k hlt (by omega)
        (fun j hj hj' => h j (by omega) (by omega)) hbad

/-- Everything the load can do: it loads all its registers, or raises at its first address outside RAM. -/
theorem State.loadRegs_cases (s : State) (count i : Nat) :
    s.loadable i count ∨ ∃ k, i ≤ k ∧ k < i + count ∧ s.loadable i (k - i) ∧ 4096 ≤ s.effAddr k := by
  induction count with
  | zero => exact .inl fun j h1 h2 => absurd h2 (by omega)
  | succ count ih =>
    rcases ih with h | ⟨k, h1, h2, h3, h4⟩
    · by_cases hlast : s.effAddr (i + count) < 4096
      · refine .inl fun j hj hj' => ?_
        rcases Nat.eq_or_lt_of_le (Nat.le_of_lt_succ hj') with rfl | hlt
        · exact hlast
        · exact h j hj hlt
      · exact .inr ⟨i + count, by omega, by omega, by simpa using h, by omega⟩
    · exact .inr ⟨k, h1, by omega, h3, h4⟩

/-! ### Drawing -/

/-- The rows `row` to `row + count - 1` of a sprite are bytes in RAM and pixels in the display. -/
def State.drawable (s : State) (base row count : Nat) : Prop :=
  ∀ r, row ≤ r → r < row + count → s.effAddr r < 4096 ∧ base + r < 2048

/-- A row inside RAM and the display toggles its pixel where its byte is 0xFF, and `VF` says whether it turned it off. -/
theorem State.drawRow_ok (s : State) (base row : Nat) (hram : s.effAddr row < 4096) (hpix : base + row < 2048) :
    ∃ t, s.drawRow base row = .ok t ∧ t = { s with regs := t.regs, display := t.display } ∧
      (∀ p, t.pixel p =
        if p = base + row ∧ s.byte (s.effAddr row) = 0xFF then !s.pixel p else s.pixel p) ∧
      t.reg 15 = (if s.byte (s.effAddr row) = 0xFF ∧ s.pixel (base + row) = true then 1 else 0) ∧
      (∀ r, r ≠ 15 → t.reg r = s.reg r) := by
  have hread : (s.setFlag 0).memRead (s.effAddr row) = .ok (s.byte (s.effAddr row)) := by
    rw [State.memRead_eq, if_pos hram]; rfl
  have hcur : (s.setFlag 0).dispRead (base + row) = .ok (s.pixel (base + row)) := by
    rw [State.dispRead_eq, if_neg (by omega)]; rfl
  have hother : ∀ r, r ≠ 15 → (s.setFlag 0).reg r = s.reg r := fun r hr => by rw [State.setFlag_reg, if_neg hr]
  unfold State.drawRow
  simp only [hread, hcur]
  unfold State.toggleRow
  by_cases hff : s.byte (s.effAddr row) = 0xFF
  · obtain ⟨u, hu, hu1, hu2⟩ := ((s.setFlag 0).dispWrite_spec (base + row) (!s.pixel (base + row))).2 hpix
    have hureg : ∀ r, u.reg r = (s.setFlag 0).reg r := fun r => by rw [hu1]; rfl
    cases hc : s.pixel (base + row) with
    | false =>
      rw [hc, Bool.not_false] at hu
      simp only [if_pos hff, hu]
      refine ⟨u, by simp, by rw [hu1]; rfl, fun p => ?_, ?_, fun r hr => (hureg r).trans (hother r hr)⟩
      · rw [hu2]; by_cases hp : p = base + row
        · subst hp; simp [hff]
        · simp [hp]
      · rw [hureg]; simp
    | true =>
      rw [hc, Bool.not_true] at hu
      simp only [if_pos hff, hu]
      refine ⟨u.setFlag 1, by simp, by rw [hu1]; rfl, fun p => ?_, by simp [hff], fun r hr => ?_⟩
      · rw [State.setFlag_pixel, hu2]; by_cases hp : p = base + row
        · subst hp; simp [hff, hc]
        · simp [hp]
      · rw [State.setFlag_reg, if_neg hr, hureg, hother r hr]
  · simp only [if_neg hff]
    exact ⟨s.setFlag 0, rfl, rfl, fun p => by rw [if_neg (fun e => hff e.2)]; rfl,
      by rw [if_neg (fun e => hff e.1)]; simp, hother⟩

/-- A row outside RAM or the display raises, RAM first. -/
theorem State.drawRow_error (s : State) (base row : Nat) :
    (4096 ≤ s.effAddr row → s.drawRow base row = .error (.outOfBounds .ram (s.effAddr row))) ∧
    (s.effAddr row < 4096 → 2048 ≤ base + row →
      s.drawRow base row = .error (.outOfBounds .display (base + row))) := by
  have hread := (s.setFlag 0).memRead_eq (s.effAddr row)
  have hcur := (s.setFlag 0).dispRead_eq (base + row)
  unfold State.drawRow
  refine ⟨fun h => ?_, fun h h' => ?_⟩
  · rw [if_neg (by omega)] at hread; simp only [hread]
  · rw [if_pos h] at hread; rw [if_pos h'] at hcur; simp only [hread, hcur]

/-- Where every row is inside RAM and the display, the rows toggle their pixels and `VF` tells of the last one. -/
theorem State.drawRows_ok (base count : Nat) : ∀ (s : State) (row : Nat), s.drawable base row count →
    ∃ t, s.drawRows base count row = .ok t ∧ t = { s with regs := t.regs, display := t.display } ∧
      (∀ r, row ≤ r → r < row + count → t.pixel (base + r) =
        if s.byte (s.effAddr r) = 0xFF then !s.pixel (base + r) else s.pixel (base + r)) ∧
      (∀ p, (∀ r, row ≤ r → r < row + count → p ≠ base + r) → t.pixel p = s.pixel p) ∧
      (count = 0 → t.reg 15 = s.reg 15) ∧
      (∀ m, count = m + 1 → t.reg 15 =
        if s.byte (s.effAddr (row + m)) = 0xFF ∧ s.pixel (base + (row + m)) = true then 1 else 0) ∧
      (∀ r, r ≠ 15 → t.reg r = s.reg r) := by
  induction count with
  | zero =>
    intro s row _
    exact ⟨s, rfl, rfl, fun r h1 h2 => absurd h2 (by omega), fun _ _ => rfl, fun _ => rfl,
      fun m h => absurd h (by omega), fun _ _ => rfl⟩
  | succ count ih =>
    intro s row h
    obtain ⟨hram, hpix⟩ := h row (Nat.le_refl row) (by omega)
    obtain ⟨u, hu, hu1, hu2, hu3, hu4⟩ := s.drawRow_ok base row hram hpix
    have heff : ∀ k, u.effAddr k = s.effAddr k := fun k => by rw [hu1]; rfl
    have hbyte : ∀ a, u.byte a = s.byte a := fun a => by rw [hu1]; rfl
    have hsame : ∀ r, r ≠ row → u.pixel (base + r) = s.pixel (base + r) := fun r hr => by
      rw [hu2, if_neg (fun e => hr (by omega))]
    obtain ⟨t, h1, h2, h3, h4, h5, h6, h7⟩ := ih u (row + 1) (fun r hr hr' => by
      rw [heff]; exact h r (by omega) (by omega))
    refine ⟨t, by simpa only [State.drawRows, hu] using h1, by rw [h2, hu1], fun r hr hr' => ?_, fun p hp => ?_,
      fun hc => absurd hc (by omega), fun m hm => ?_, fun r hr => (h7 r hr).trans (hu4 r hr)⟩
    · rcases Nat.eq_or_lt_of_le hr with rfl | hlt
      · rw [h4 (base + row) (fun r' hr' _ => by omega), hu2]; simp
      · rw [h3 r hlt (by omega), heff, hbyte, hsame r (by omega)]
    · rw [h4 p (fun r hr hr' => hp r (by omega) (by omega)), hu2,
        if_neg (fun e => hp row (Nat.le_refl row) (by omega) e.1)]
    · obtain rfl : count = m := by omega
      cases count with
      | zero => rw [h5 rfl, hu3, Nat.add_zero]
      | succ k =>
        rw [h6 k rfl, heff, hbyte, hsame _ (by omega), show row + 1 + k = row + (k + 1) by omega]

/-- At the first row outside RAM or the display, the draw raises, RAM first. -/
theorem State.drawRows_error (base count : Nat) : ∀ (s : State) (row k : Nat), row ≤ k → k < row + count →
    s.drawable base row (k - row) →
    (4096 ≤ s.effAddr k → s.drawRows base count row = .error (.outOfBounds .ram (s.effAddr k))) ∧
    (s.effAddr k < 4096 → 2048 ≤ base + k →
      s.drawRows base count row = .error (.outOfBounds .display (base + k))) := by
  induction count with
  | zero => intro s row k h1 h2; omega
  | succ count ih =>
    intro s row k hrk hk h
    rcases Nat.eq_or_lt_of_le hrk with rfl | hlt
    · obtain ⟨e1, e2⟩ := s.drawRow_error base row
      exact ⟨fun hb => by simp only [State.drawRows, e1 hb], fun hb hp => by simp only [State.drawRows, e2 hb hp]⟩
    · obtain ⟨hram, hpix⟩ := h row (Nat.le_refl row) (by omega)
      obtain ⟨u, hu, hu1, _, _, _⟩ := s.drawRow_ok base row hram hpix
      have heff : ∀ j, u.effAddr j = s.effAddr j := fun j => by rw [hu1]; rfl
      have := ih u (row + 1) k hlt (by omega) (fun r hr hr' => by
        rw [heff]; exact h r (by omega) (by omega))
      simpa only [State.drawRows, hu, heff] using this

/-- Everything the draw can do: it draws all its rows, or raises at its first bad one. -/
theorem State.drawRows_cases (s : State) (base count row : Nat) :
    s.drawable base row count ∨
    ∃ k, row ≤ k ∧ k < row + count ∧ s.drawable base row (k - row) ∧
      (4096 ≤ s.effAddr k ∨ s.effAddr k < 4096 ∧ 2048 ≤ base + k) := by
  induction count with
  | zero => exact .inl fun j h1 h2 => absurd h2 (by omega)
  | succ count ih =>
    rcases ih with h | ⟨k, h1, h2, h3, h4⟩
    · by_cases hlast : s.effAddr (row + count) < 4096 ∧ base + (row + count) < 2048
      · refine .inl fun j hj hj' => ?_
        rcases Nat.eq_or_lt_of_le (Nat.le_of_lt_succ hj') with rfl | hlt
        · exact hlast
        · exact h j hj hlt
      · exact .inr ⟨row + count, by omega, by omega, by simpa using h, by omega⟩
    · exact .inr ⟨k, h1, by omega, h3, h4⟩

/-! ### Fetch -/

theorem State.fetch_eq (s : State) :
    s.fetch = if s.pc.toNat + 2 ≤ 4096 then .ok (s.byte s.pc.toNat ++ s.byte (s.pc.toNat + 1))
      else .error (.outOfBounds .ram (max s.pc.toNat 4096)) := s.memReadWord_eq s.pc.toNat

/-- The two bytes of a word, joined again. -/
theorem bytes_of_word (w : Word) : w.extractLsb' 8 8 ++ w.extractLsb' 0 8 = w := by
  apply BitVec.eq_of_getLsbD_eq
  intro i hi
  rw [BitVec.getLsbD_append, BitVec.getLsbD_extractLsb', BitVec.getLsbD_extractLsb']
  by_cases h : i < 8
  · simp [h]
  · simp [h, show i - 8 < 8 by omega, show 8 + (i - 8) = i by omega]

/-- A placed word is the word the next fetch reads. -/
theorem State.fetch_placeWord (s : State) (w : Word) (h : s.pc.toNat + 2 ≤ 4096) : (s.placeWord w).fetch = .ok w := by
  obtain ⟨p1, p2, _⟩ := s.poke_spec s.pc.toNat (w.extractLsb' 8 8)
  obtain ⟨q1, q2, _⟩ := (s.poke s.pc.toNat (w.extractLsb' 8 8)).poke_spec (s.pc.toNat + 1) (w.extractLsb' 0 8)
  have hpc : (s.placeWord w).pc = s.pc := by unfold State.placeWord; rw [q1, p1]
  rw [State.fetch_eq, hpc, if_pos h]
  unfold State.placeWord
  rw [q2, q2, p2, if_neg (by omega), if_pos ⟨by omega, rfl⟩, if_pos ⟨by omega, rfl⟩]
  rw [bytes_of_word]

end Sys2Proof.Machine
end

