-- ==== Sys2Proof/Laws/Exec.lean ====
section
/-! SUPPORT. What an instruction can change, said once for all of them (`exec_cases`), and what a step can do
(`step_cases`). Invariants and whole-machine rules follow from these two. -/

namespace Sys2Proof.Machine

open Sys2Proof.Safety

theorem zextAddr_toNat (nnn : Addr) : (zextAddr nnn).toNat = nnn.toNat := by
  simp only [zextAddr, BitVec.toNat_setWidth]; omega

/-- What an instruction that raises nothing changes, part by part. -/
structure Changes (i : Instr) (s t : State) : Prop where
  /-- No instruction touches the keys, the timers or the latch. -/
  host : t.keys = s.keys ∧ t.delay = s.delay ∧ t.sound = s.sound ∧ t.fault = s.fault
  /-- RAM changes only by `Fx55`, at addresses that may be stored to. -/
  ram : t.mem = s.mem ∨ ∃ x, i = .ldStore x ∧ s.storable 0 x.val ∧
    (∀ a, (∀ j, j < x.val → a ≠ s.effAddr j) → t.byte a = s.byte a) ∧ (s.mem.wf → t.mem.wf)
  /-- The display changes only by `00E0` and `Dxyn`. -/
  display : t.display = s.display ∨ i = .cls ∨ ∃ x y n, i = .drw x y n
  /-- `PC`, `SP` and the slots: the next instruction, a skip or an address `nnn`; a pop; or a push. -/
  control :
    (t.stack = s.stack ∧ t.sp = s.sp ∧ (t.pc = s.pc + 2 ∨ t.pc = s.pc + 2 + 2 ∨ t.pc.toNat < 4096)) ∨
    (i = .ret ∧ t.stack = s.stack ∧ 0 < s.sp.val ∧ t.pc = s.slot (s.sp.val - 1)) ∨
    (∃ nnn, i = .call nnn ∧ t.pc.toNat < 4096 ∧ ∀ j, t.slot j = s.slot j ∨ t.slot j = s.pc + 2)

/-- An instruction that changes only registers and the index, and goes to the next instruction. -/
theorem Changes.of_advance {i : Instr} {s t : State}
    (h : t = { s with pc := s.pc + 2, regs := t.regs, index := t.index }) : Changes i s t := by
  rw [h]; exact ⟨⟨rfl, rfl, rfl, rfl⟩, .inl rfl, .inl rfl, .inl ⟨rfl, rfl, .inl rfl⟩⟩

/-- A skip. -/
theorem Changes.of_skip (i : Instr) (s : State) (c : Bool) : Changes i s (s.advance.skipIf c) := by
  rw [State.skipIf_eq]
  refine ⟨⟨rfl, rfl, rfl, rfl⟩, .inl rfl, .inl rfl, .inl ⟨rfl, rfl, ?_⟩⟩
  cases c
  · exact .inl rfl
  · exact .inr (.inl rfl)

/-- Everything an instruction can answer with a next state: the entry into a fault it may raise, or its changes. -/
theorem exec_cases {i : Instr} {s t : State} (h : exec i s = .next t) :
    (∃ f, t = s.takeFault f ∧ mayRaise i f) ∨ Changes i s t := by
  cases i <;> simp only [exec] at h
  case nop => cases h; exact .inr (.of_advance rfl)
  case cls =>
    cases h
    exact .inr ⟨⟨rfl, rfl, rfl, rfl⟩, .inl rfl, .inr (.inl rfl), .inl ⟨rfl, rfl, .inl rfl⟩⟩
  case ret =>
    unfold execRet at h
    by_cases h0 : s.sp.val = 0
    · rw [s.advance.popPc_spec.1 h0] at h; cases h; exact .inl ⟨_, rfl, trivial⟩
    · rw [s.advance.popPc_spec.2 (Nat.pos_of_ne_zero h0)] at h
      cases h
      exact .inr ⟨⟨rfl, rfl, rfl, rfl⟩, .inl rfl, .inl rfl,
        .inr (.inl ⟨rfl, rfl, Nat.pos_of_ne_zero h0, rfl⟩)⟩
  case jp nnn =>
    cases h
    exact .inr ⟨⟨rfl, rfl, rfl, rfl⟩, .inl rfl, .inl rfl,
      .inl ⟨rfl, rfl, .inr (.inr (Nat.lt_of_le_of_lt (Nat.le_of_eq (zextAddr_toNat nnn)) nnn.isLt))⟩⟩
  case call nnn =>
    unfold execCall at h
    by_cases h0 : s.sp.val = 16
    · rw [(s.advance.push_spec _).1 h0] at h; cases h; exact .inl ⟨_, rfl, trivial⟩
    · obtain ⟨u, hu, hu1, _, hslot⟩ :=
        (s.advance.push_spec s.advance.pc).2 (Nat.lt_of_le_of_ne (Nat.le_of_lt_succ s.sp.isLt) h0)
      rw [hu] at h
      cases h
      refine .inr ⟨by rw [hu1]; exact ⟨rfl, rfl, rfl, rfl⟩, .inl (by rw [hu1]; rfl), .inl (by rw [hu1]; rfl),
        .inr (.inr ⟨nnn, rfl, Nat.lt_of_le_of_lt (Nat.le_of_eq (zextAddr_toNat nnn)) nnn.isLt, fun j => ?_⟩)⟩
      rw [State.setPc_slot, hslot]
      split
      · exact .inr rfl
      · exact .inl rfl
  case seImm x kk => cases h; exact .inr (.of_skip _ s _)
  case sneImm x kk => cases h; exact .inr (.of_skip _ s _)
  case seReg x y => cases h; exact .inr (.of_skip _ s _)
  case addI x =>
    unfold execAddI at h
    split at h <;> cases h
    · exact .inl ⟨_, rfl, trivial⟩
    · exact .inr (.of_advance rfl)
  case ldStore x =>
    unfold execLdStore at h
    rcases s.advance.storeRegs_cases x.val 0 with hc | ⟨k, h1, h2, h3, h4⟩
    · obtain ⟨u, hu, hu1, _, hother, hwf⟩ := State.storeRegs_ok _ _ _ hc
      rw [hu] at h
      cases h
      refine .inr ⟨by rw [hu1]; exact ⟨rfl, rfl, rfl, rfl⟩,
        .inr ⟨x, rfl, hc, fun a ha => hother a fun j _ hj => ha j (by omega), hwf⟩, .inl (by rw [hu1]; rfl), .inl ?_⟩
      rw [hu1]; exact ⟨rfl, rfl, .inl rfl⟩
    · obtain ⟨e1, e2⟩ := State.storeRegs_error _ _ _ k h1 h2 h3
      rcases h4 with h4 | h4
      · rw [e1 h4] at h; cases h; exact .inl ⟨_, rfl, trivial⟩
      · rw [e2 h4] at h; cases h; exact .inl ⟨_, rfl, trivial⟩
  case ldLoad x =>
    unfold execLdLoad at h
    rcases s.advance.loadRegs_cases x.val 0 with hc | ⟨k, h1, h2, h3, h4⟩
    · obtain ⟨u, hu, hu1, _⟩ := State.loadRegs_ok _ _ _ (by omega) hc
      rw [hu] at h; cases h; exact .inr (.of_advance (by rw [hu1]; rfl))
    · rw [State.loadRegs_error _ _ _ k h1 h2 h3 h4] at h; cases h; exact .inl ⟨_, rfl, trivial⟩
  case drw x y n =>
    unfold execDrw at h
    rcases s.advance.drawRows_cases (pixelBase (s.reg x) (s.reg y)) n 0 with hc | ⟨k, h1, h2, h3, h4⟩
    · obtain ⟨u, hu, hu1, _⟩ := State.drawRows_ok _ _ _ _ hc
      rw [hu] at h
      cases h
      refine .inr ⟨by rw [hu1]; exact ⟨rfl, rfl, rfl, rfl⟩, .inl (by rw [hu1]; rfl), .inr (.inr ⟨x, y, n, rfl⟩), .inl ?_⟩
      rw [hu1]; exact ⟨rfl, rfl, .inl rfl⟩
    · obtain ⟨e1, e2⟩ := State.drawRows_error _ _ _ _ k h1 h2 h3
      rcases h4 with h4 | h4
      · rw [e1 h4] at h; cases h; exact .inl ⟨_, rfl, trivial⟩
      · rw [e2 h4.1 h4.2] at h; cases h; exact .inl ⟨_, rfl, trivial⟩
  all_goals cases h; exact .inr (.of_advance rfl)

/-- A fetch that answers a word read two bytes of RAM. -/
theorem State.fetch_inside {s : State} {w : Word} (h : s.fetch = .ok w) : s.pc.toNat + 2 ≤ 4096 := by
  rw [State.fetch_eq] at h
  split at h
  · assumption
  · cases h

/-- Everything a step can answer with a next state: no fault was latched, and it is the entry into a fault of the fetch or
the decoder, or what the instruction at `PC` answers. -/
theorem step_cases {s t : State} (h : step s = .next t) :
    s.fault = none ∧ ((∃ f, t = s.takeFault f) ∨ ∃ i, Executes s i ∧ exec i s = .next t) := by
  have h0 : s.fault = none := by
    cases hf : s.fault with
    | none => rfl
    | some f => simp [step, tick, hf] at h
  refine ⟨h0, ?_⟩
  simp only [step, tick, h0, fetchExecute] at h
  split at h
  · cases h; exact .inl ⟨_, rfl⟩
  · next w hw =>
    split at h
    · cases h; exact .inl ⟨_, rfl⟩
    · next i hi => exact .inr ⟨i, ⟨h0, w, hw, hi⟩, h⟩

/-- The state after a `tick` transaction: the step's next state, or the same state where the step gives none. -/
theorem tick_after_cases (s : State) : Txn.tick.after s = s ∨ step s = .next (Txn.tick.after s) := by
  simp only [Txn.after, Txn.run, tickTxn]
  cases step s with
  | next t => right; simp only; split <;> rfl
  | fault f => exact .inl rfl
  | refused r => exact .inl rfl

/-- Every part but those listed is unchanged, from the parts one by one. -/
theorem unchangedBut_of_parts {changed : List Part} {s t : State} (h : ∀ p, p ∈ changed ∨ p.Same s t) :
    UnchangedBut changed s t := fun p hp => (h p).resolve_left hp

end Sys2Proof.Machine
end

