-- ==== Sys2Proof/Laws/PerInstr.lean ====
section
/-! SUPPORT. The family RoundTrip, one lemma per constructor: decoding the word of a well-formed instruction gives the
instruction, with every operand at every value its field admits (30_encoding.md R63, R65). -/

namespace Sys2Proof.Laws.RoundTrip

open Sys2Proof

/-- The word of a well-formed instruction decodes to it. -/
def Statement (i : Instr) : Prop := i.wellFormed = true → decode (encode i) = some i

theorem nop : Statement .nop := fun _ => rfl

theorem cls : Statement .cls := fun _ => rfl

theorem ret : Statement .ret := fun _ => rfl

theorem jp (nnn : Addr) : Statement (.jp nnn) := fun _ => by
  obtain ⟨h1, h2⟩ := fields_wordNNN 0x1 nnn (by decide)
  simp only [encode, decode, h1, h2]

theorem call (nnn : Addr) : Statement (.call nnn) := fun _ => by
  obtain ⟨h1, h2⟩ := fields_wordNNN 0x2 nnn (by decide)
  simp only [encode, decode, h1, h2]

theorem seImm (x : Reg) (kk : Byte) : Statement (.seImm x kk) := fun _ => by
  obtain ⟨h1, h2, h3⟩ := fields_wordXKK 0x3 x kk (by decide)
  simp only [encode, decode, h1, h2, h3]

theorem sneImm (x : Reg) (kk : Byte) : Statement (.sneImm x kk) := fun _ => by
  obtain ⟨h1, h2, h3⟩ := fields_wordXKK 0x4 x kk (by decide)
  simp only [encode, decode, h1, h2, h3]

theorem seReg (x y : Reg) : Statement (.seReg x y) := fun _ => by
  obtain ⟨h1, h2, h3, h4⟩ := fields_wordXYN 0x5 x y 0 (by decide) (by decide)
  have h5 : d4 (wordXYN 0x5 x y 0) = 0 := BitVec.eq_of_toNat_eq h4
  simp only [encode, decode, decode5, h1, h2, h3, h5, if_true]

theorem ldImm (x : Reg) (kk : Byte) : Statement (.ldImm x kk) := fun _ => by
  obtain ⟨h1, h2, h3⟩ := fields_wordXKK 0x6 x kk (by decide)
  simp only [encode, decode, h1, h2, h3]

theorem addImm (x : Reg) (kk : Byte) : Statement (.addImm x kk) := fun _ => by
  obtain ⟨h1, h2, h3⟩ := fields_wordXKK 0x7 x kk (by decide)
  simp only [encode, decode, h1, h2, h3]

theorem ldReg (x y : Reg) : Statement (.ldReg x y) := fun _ => by
  obtain ⟨h1, h2, h3, h4⟩ := fields_wordXYN 0x8 x y 0 (by decide) (by decide)
  simp only [encode, decode, decode8, h1, h2, h3, h4]

theorem or (x y : Reg) : Statement (.or x y) := fun _ => by
  obtain ⟨h1, h2, h3, h4⟩ := fields_wordXYN 0x8 x y 1 (by decide) (by decide)
  simp only [encode, decode, decode8, h1, h2, h3, h4]

theorem and (x y : Reg) : Statement (.and x y) := fun _ => by
  obtain ⟨h1, h2, h3, h4⟩ := fields_wordXYN 0x8 x y 2 (by decide) (by decide)
  simp only [encode, decode, decode8, h1, h2, h3, h4]

theorem xor (x y : Reg) : Statement (.xor x y) := fun _ => by
  obtain ⟨h1, h2, h3, h4⟩ := fields_wordXYN 0x8 x y 3 (by decide) (by decide)
  simp only [encode, decode, decode8, h1, h2, h3, h4]

theorem addReg (x y : Reg) : Statement (.addReg x y) := fun _ => by
  obtain ⟨h1, h2, h3, h4⟩ := fields_wordXYN 0x8 x y 4 (by decide) (by decide)
  simp only [encode, decode, decode8, h1, h2, h3, h4]

theorem sub (x y : Reg) : Statement (.sub x y) := fun _ => by
  obtain ⟨h1, h2, h3, h4⟩ := fields_wordXYN 0x8 x y 5 (by decide) (by decide)
  simp only [encode, decode, decode8, h1, h2, h3, h4]

theorem ldI (nnn : Addr) : Statement (.ldI nnn) := fun _ => by
  obtain ⟨h1, h2⟩ := fields_wordNNN 0xA nnn (by decide)
  simp only [encode, decode, h1, h2]

theorem drw (x y : Reg) (n : Nat) : Statement (.drw x y n) := fun hn => by
  have hn' : n < 16 := by simp [Instr.wellFormed, rowCountOk] at hn; omega
  obtain ⟨h1, h2, h3, h4⟩ := fields_wordXYN 0xD x y n (by decide) hn'
  simp only [encode, decode, h1, h2, h3, h4]

theorem addI (x : Reg) : Statement (.addI x) := fun _ => by
  obtain ⟨h1, h2, h3⟩ := fields_wordX 0xF x 0x1E (by decide) (by decide)
  simp [encode, decode, decodeF, h1, h2, h3]

theorem ldF (x : Reg) : Statement (.ldF x) := fun _ => by
  obtain ⟨h1, h2, h3⟩ := fields_wordX 0xF x 0x29 (by decide) (by decide)
  simp [encode, decode, decodeF, h1, h2, h3]

theorem ldStore (x : Reg) : Statement (.ldStore x) := fun _ => by
  obtain ⟨h1, h2, h3⟩ := fields_wordX 0xF x 0x55 (by decide) (by decide)
  simp [encode, decode, decodeF, h1, h2, h3]

theorem ldLoad (x : Reg) : Statement (.ldLoad x) := fun _ => by
  obtain ⟨h1, h2, h3⟩ := fields_wordX 0xF x 0x65 (by decide) (by decide)
  simp [encode, decode, decodeF, h1, h2, h3]

end Sys2Proof.Laws.RoundTrip
end

