-- ==== Sys2Proof/Tests/Slice0.lean ====
section
/-! SUPPORT. Small tests. Expected results are the spec's own: the worked examples of the instruction rules and the vectors
of 95_test_vectors.md, whose ids the comments give. The witnesses at the end show that the statements' hypotheses can be
met together. -/

namespace Sys2Proof.Tests

open Sys2Proof.Machine Sys2Proof.Safety

/-! ### Well-formedness: an ill-formed term for the one check -/

theorem test_wellFormed_refuses_sixteen_rows : (Instr.drw 0 0 16).wellFormed = false := by decide
theorem test_wellFormed_accepts_fifteen_rows : (Instr.drw 0 0 15).wellFormed = true := by decide

/-! ### Decoding: one word per constructor, written out from the opcode map (30_encoding.md R65) -/

theorem test_decode_nop : decode 0x0000 = some .nop := by decide
theorem test_decode_cls : decode 0x00E0 = some .cls := by decide
theorem test_decode_ret : decode 0x00EE = some .ret := by decide
theorem test_decode_jp : decode 0b0001_101010111100 = some (.jp 0xABC) := by decide
theorem test_decode_call : decode 0b0010_001000010000 = some (.call 0x210) := by decide
theorem test_decode_seImm : decode 0b0011_0011_01000010 = some (.seImm 3 0x42) := by decide
theorem test_decode_sneImm : decode 0b0100_0011_01000010 = some (.sneImm 3 0x42) := by decide
theorem test_decode_seReg : decode 0b0101_0001_0010_0000 = some (.seReg 1 2) := by decide
theorem test_decode_ldImm : decode 0b0110_0101_10101011 = some (.ldImm 5 0xAB) := by decide
theorem test_decode_addImm : decode 0b0111_1010_00010000 = some (.addImm 0xA 0x10) := by decide
theorem test_decode_ldReg : decode 0b1000_0001_0010_0000 = some (.ldReg 1 2) := by decide
theorem test_decode_or : decode 0b1000_0001_0010_0001 = some (.or 1 2) := by decide
theorem test_decode_and : decode 0b1000_0001_0010_0010 = some (.and 1 2) := by decide
theorem test_decode_xor : decode 0b1000_0001_0010_0011 = some (.xor 1 2) := by decide
theorem test_decode_addReg : decode 0b1000_0001_0010_0100 = some (.addReg 1 2) := by decide
theorem test_decode_sub : decode 0b1000_0001_0010_0101 = some (.sub 1 2) := by decide
theorem test_decode_ldI : decode 0b1010_001000100011 = some (.ldI 0x223) := by decide
theorem test_decode_drw : decode 0b1101_0011_0100_0101 = some (.drw 3 4 5) := by decide
theorem test_decode_addI : decode 0b1111_0010_00011110 = some (.addI 2) := by decide
theorem test_decode_ldF : decode 0b1111_0100_00101001 = some (.ldF 4) := by decide
theorem test_decode_ldStore : decode 0b1111_0010_01010101 = some (.ldStore 2) := by decide
theorem test_decode_ldLoad : decode 0b1111_0011_01100101 = some (.ldLoad 3) := by decide

/-- Unsupported words of every class (F6 to F10, and R68's `F11F`). -/
theorem test_decode_unsupported :
    [0x0123, 0x00E1, 0x5121, 0x8126, 0x8127, 0x812E, 0x9120, 0xB123].all (fun w : Word => decode w == none) &&
    [0xC1FF, 0xE19E, 0xF107, 0xF10A, 0xF115, 0xF118, 0xF133, 0xF11F].all (fun w : Word => decode w == none) := by
  decide

/-- Bytes are big-endian (R48), and bytes that are no instruction are rejected by name (R60, R66). -/
theorem test_decodeBytes :
    decodeBytes [0x12, 0x34, 0xFF] = .instr (.jp 0x234) [0xFF] ∧ decodeBytes [0x91, 0x20] = .unsupported 0x9120 ∧
    decodeBytes [0x12] = .truncated := by decide

theorem test_decodeTableWord : decodeTableWord 16 0xA223 = some (.ldI 0x223) ∧ decodeTableWord 16 0x9120 = none := by
  decide

/-- The classes of R66 have no word in common with the 22 rows: one word of each row is supported. -/
theorem test_opcodeTable_rows : opcodeTable.all (fun r => (decode r.pattern).map rowOf == some r) = true := by decide

/-! ### One tick on a small state -/

/-- The reset state with some registers set, and a word at 0x200 where `PC` points. -/
def start (regs : List (Reg × Byte)) (w : Word) : State :=
  (regs.foldl (fun s p => s.setReg p.1 p.2) State.reset).placeWord w

/-- The state a tick leaves; the same state where a step gives none. -/
def ticked (s : State) : State := Txn.tick.after s

/-- RAM bytes placed from an address. -/
def withBytes (a : Nat) (bytes : List Byte) (s : State) : State := s.pokeAll a bytes

-- NOP: C1, F2
theorem test_nop : (ticked (start [] 0x0000)).pc = 0x202 := by decide
theorem test_nop_at_top : (ticked ((start [] 0).setPc 0xFFE)).pc = 0x1000 := by decide

-- RET: C8, C9
theorem test_ret :
    let t := ticked { start [] 0x00EE with sp := 1, stack := State.reset.stack.set 0 0x208 }
    t.pc = 0x208 ∧ t.sp = 0 ∧ t.slot 0 = 0x208 := by decide
theorem test_ret_underflow : ticked (start [] 0x00EE) = (start [] 0x00EE).takeFault (.stackUnderflow 0) := by rfl

-- JP: C3
theorem test_jp_odd : (ticked (start [] 0x1203)).pc = 0x203 := by decide

-- CALL: C6, C7
theorem test_call_last_slot :
    let t := ticked { start [] 0x2300 with sp := 15 }
    t.slot 15 = 0x202 ∧ t.sp = 16 ∧ t.pc = 0x300 := by decide
theorem test_call_overflow :
    let t := ticked { start [] 0x2300 with sp := 16 }
    t.fault = some (.stackOverflow 16) ∧ t.pc = 0x200 ∧ t.sp = 16 := by decide

-- SE_imm: C11, C12
theorem test_seImm_skips : (ticked (start [(3, 0x42)] 0x3342)).pc = 0x204 := by decide
theorem test_seImm_stays : (ticked (start [(3, 0x41)] 0x3342)).pc = 0x202 := by decide

-- SNE_imm: C13, C14
theorem test_sneImm_stays : (ticked (start [(3, 0x42)] 0x4342)).pc = 0x202 := by decide
theorem test_sneImm_skips : (ticked (start [(3, 0x41)] 0x4342)).pc = 0x204 := by decide

-- SE_reg: C15, C16
theorem test_seReg_skips : (ticked (start [(1, 7), (2, 7)] 0x5120)).pc = 0x204 := by decide
theorem test_seReg_stays : (ticked (start [(1, 7), (2, 8)] 0x5120)).pc = 0x202 := by decide

-- LD_imm: A1, and the odd fetch F5
theorem test_ldImm : (ticked (start [] 0x65AB)).reg 5 = 0xAB := by decide
theorem test_ldImm_odd_fetch :
    let t := ticked (((start [] 0).setPc 0x203).placeWord 0x6107)
    t.reg 1 = 0x07 ∧ t.pc = 0x205 := by decide

-- ADD_imm: A2, A3
theorem test_addImm_wraps :
    let t := ticked (start [(5, 0xFF), (15, 0x33)] 0x7502)
    t.reg 5 = 0x01 ∧ t.reg 15 = 0x33 := by decide
theorem test_addImm_vf : (ticked (start [(15, 0x10)] 0x7F01)).reg 15 = 0x11 := by decide

-- LD_reg: A4
theorem test_ldReg : (ticked (start [(1, 3), (2, 9)] 0x8120)).reg 1 = 9 := by decide

-- OR, AND, XOR: A5 to A8
theorem test_or :
    let t := ticked (start [(1, 0x0F), (2, 0xF0), (15, 0x55)] 0x8121)
    t.reg 1 = 0xFF ∧ t.reg 15 = 0x55 := by decide
theorem test_and : (ticked (start [(1, 0x3C), (2, 0x0F)] 0x8122)).reg 1 = 0x0C := by decide
theorem test_xor : (ticked (start [(1, 0x3C), (2, 0x0F)] 0x8123)).reg 1 = 0x33 := by decide
theorem test_xor_same : (ticked (start [(1, 0x3C)] 0x8113)).reg 1 = 0x00 := by decide

-- ADD_reg: E5 and A11; A13, A14 and A15
theorem test_addReg_carry :
    let t := ticked (start [(1, 250), (2, 10)] 0x8124)
    let u := ticked (start [(1, 0x80), (2, 0x7F)] 0x8124)
    t.reg 1 = 4 ∧ t.reg 15 = 1 ∧ u.reg 1 = 0xFF ∧ u.reg 15 = 0 := by decide
theorem test_addReg_vf :
    (ticked (start [(15, 250), (1, 10)] 0x8F14)).reg 15 = 0x0B ∧
    (ticked (start [(1, 250), (15, 10)] 0x81F4)).reg 1 = 0xFB ∧
    (ticked (start [(15, 0x80)] 0x8FF4)).reg 15 = 0x02 := by decide

-- SUB: A16, A17 and A18; A20, A21 and A22
theorem test_sub_borrow :
    let t := ticked (start [(1, 3), (2, 10)] 0x8125)
    let u := ticked (start [(1, 5), (2, 5)] 0x8125)
    (ticked (start [(1, 10), (2, 3)] 0x8125)).reg 15 = 1 ∧ t.reg 1 = 0xF9 ∧ t.reg 15 = 0 ∧ u.reg 1 = 0 ∧
    u.reg 15 = 0 := by decide
theorem test_sub_vf :
    (ticked (start [(15, 10), (1, 3)] 0x8F15)).reg 15 = 0xFE ∧
    (ticked (start [(1, 10), (15, 3)] 0x81F5)).reg 1 = 9 ∧
    (ticked (start [(15, 0x42)] 0x8FF5)).reg 15 = 0 := by decide

-- LD_I: E2
theorem test_ldI :
    let t := ticked ((Txn.load [0xA2, 0x23]).after State.reset)
    t.index = 0x223 ∧ t.pc = 0x202 := by decide

-- ADD_I: X2, X4
theorem test_addI :
    let t := ticked ((start [(2, 0x10), (15, 7)] 0xF21E).setIndex 0x123)
    t.index = 0x133 ∧ t.reg 15 = 7 := by decide
theorem test_addI_overflow :
    let t := ticked ((start [(0, 1)] 0xF01E).setIndex 0xFFFF)
    t.fault = some (.arithmeticOverflow 0xFFFF 1) ∧ t.index = 0xFFFF ∧ t.pc = 0x200 := by decide

-- LD_F: X5 to X7
theorem test_ldF :
    (ticked (start [(4, 0x0A)] 0xF429)).index = 0x32 ∧ (ticked (start [(4, 0x1B)] 0xF429)).index = 0x37 ∧
    (ticked (start [(4, 0xFF)] 0xF429)).index = 0x4B := by decide

-- LD_store: X8; X10, X11 and X9
theorem test_ldStore :
    let t := ticked ((withBytes 0x302 [0xEE] (start [(0, 1), (1, 2), (2, 3)] 0xF255)).setIndex 0x300)
    t.byte 0x300 = 1 ∧ t.byte 0x301 = 2 ∧ t.byte 0x302 = 0xEE ∧ t.index = 0x300 := by decide
theorem test_ldStore_faults :
    let t := ticked ((withBytes 0xFFF [0xAA] (start [(0, 1), (1, 2)] 0xF255)).setIndex 0xFFF)
    t.fault = some (.outOfBounds .ram 0x1000) ∧ t.byte 0xFFF = 0xAA ∧
    (ticked ((start [] 0xF155).setIndex 0x4F)).fault = some (.fontRegionWrite 0x4F) ∧
    (ticked ((start [] 0xF055).setIndex 0x5000)).fault = none := by decide

-- LD_load: X14; X17 and X16
theorem test_ldLoad_font :
    let t := ticked (start [(3, 9)] 0xF365)
    t.reg 0 = 0xF0 ∧ t.reg 1 = 0x90 ∧ t.reg 2 = 0x90 ∧ t.reg 3 = 9 := by decide
theorem test_ldLoad_rolls_back :
    let t := ticked ((withBytes 0xFFE [1, 2] (start [] 0xF365)).setIndex 0xFFE)
    t.fault = some (.outOfBounds .ram 0x1000) ∧ t.reg 0 = 0 ∧ t.reg 1 = 0 ∧
    (ticked ((start [] 0xF065).setIndex 0x5000)).fault = none := by decide

/-- A state with a pixel lit, for the display tests. -/
def lit (p : Nat) (s : State) : State := { s with display := s.display.setIfInBounds p true }

-- CLS: D15
theorem test_cls : (ticked (lit 5 (start [(15, 3)] 0x00E0))).pixel 5 = false := by decide

-- DRW: D2, D6 and D11; D8, D9 and D12
theorem test_drw :
    let t := ticked (lit 0 ((withBytes 0x300 [0xFF] (start [] 0xD011)).setIndex 0x300))
    let u := ticked (lit 0 ((withBytes 0x300 [0xFF, 0x00] (start [] 0xD012)).setIndex 0x300))
    t.pixel 0 = false ∧ t.reg 15 = 1 ∧ u.pixel 0 = false ∧ u.pixel 1 = false ∧ u.reg 15 = 0 ∧
    (ticked ((withBytes 0x300 [0xFF] (start [(0, 200)] 0xD011)).setIndex 0x300)).pixel 200 = true := by
  decide +kernel
theorem test_drw_edges :
    let t := ticked ((withBytes 0x300 [0xFF, 0xFF] (start [(0, 63), (1, 31), (15, 9)] 0xD012)).setIndex 0x300)
    t.fault = some (.outOfBounds .display 2048) ∧ t.pixel 2047 = false ∧ t.reg 15 = 9 ∧
    (ticked ((start [(0, 63), (1, 31)] 0xD01F).setIndex 0x300)).fault = some (.outOfBounds .display 2048) ∧
    (ticked ((withBytes 0x300 [0xFF] (start [(15, 5)] 0xDF11)).setIndex 0x300)).pixel 5 = true := by
  decide +kernel

/-! ### The cycle, the latch and the host's transactions -/

-- E8, F3 and F4
theorem test_unsupported : (ticked (start [] 0x9120)).fault = some (.unsupportedOpcode 0x9120) ∧
    (ticked (start [] 0x9120)).pc = 0x200 := by decide
theorem test_fetch_outside :
    (ticked (State.reset.setPc 0x1000)).fault = some (.outOfBounds .ram 0x1000) ∧
    (ticked (State.reset.setPc 0xFFF)).fault = some (.outOfBounds .ram 0x1000) ∧
    (ticked (State.reset.setPc 0x1002)).fault = some (.outOfBounds .ram 0x1002) := by decide
-- F11
theorem test_step_refused : step (State.reset.takeFault (.unsupportedOpcode 0x9120)) = .fault (.unsupportedOpcode 0x9120) :=
  rfl
theorem test_withFetchWord : (State.reset.withFetchWord 16 0xA223).fetch = .ok 0xA223 := by rfl
-- T1 and T3
theorem test_tickTimers :
    Txn.tickTimers.response { State.reset with delay := 2, sound := 1 } = .soundExpired true ∧
    (Txn.tickTimers.after { State.reset with delay := 2, sound := 1 }).delay = 1 ∧
    Txn.tickTimers.response { State.reset with sound := 2 } = .soundExpired false := by decide
-- H1 and H3
theorem test_keypress :
    ((Txn.keypress 3 true).after State.reset).keys[3] = true ∧
    (Txn.keypress 16 true).response State.reset = .faulted (.keyIndexOutOfRange 16) := by decide
-- H7
theorem test_load_twice :
    let t := (Txn.load [0x11]).after ((Txn.load [0xAA, 0xBB, 0xCC]).after State.reset)
    t.byte 0x200 = 0x11 ∧ t.byte 0x201 = 0xBB ∧ t.byte 0x202 = 0xCC ∧ t.pc = 0x200 := by decide
-- H6
theorem test_load_too_long : ((Txn.load (List.replicate 3585 0x11)).response State.reset) =
    .faulted (.outOfBounds .ram 0x1000) := by decide +kernel
theorem test_fault_codes : Fault.code (.unsupportedOpcode 0x9120) = 1 ∧ Fault.code (.keyIndexOutOfRange 16) = 7 := by decide
/-- Writing an address's reset byte removes its cell. -/
theorem test_memory_canonical :
    Memory.write [(0x300, 7), (0x302, 9)] 0x301 1 = [(0x300, 7), (0x301, 1), (0x302, 9)] ∧
    Memory.write [(0x300, 7), (0x302, 9)] 0x302 0 = [(0x300, 7)] := by decide

/-! ### Witnesses: the hypotheses of each statement, met together, at the edges of their clauses -/

/-- A state other than reset that meets the invariant. -/
theorem witness_inv : Inv (State.reset.setPc 0x202) :=
  ⟨Memory.reset_wf, fun a ha => by simp [resetByte, ha], by simp, fun j _ => by simp⟩

theorem witness_StepRunsTheDecodedInstruction :
    (State.reset.takeFault (.stackUnderflow 0)).fault = some (.stackUnderflow 0) ∧
    (State.reset.fault = none ∧ 4096 < (State.reset.setPc 0xFFF).pc.toNat + 2) ∧
    (State.reset.setPc 0xFFE).pc.toNat + 2 ≤ 4096 ∧ decode (0x12#8 ++ 0x04#8) = some (.jp 0x204) ∧
    decode (0x91#8 ++ 0x20#8) = none := by decide

theorem witness_RefusedWhileAFaultIsLatched :
    (State.reset.takeFault (.stackUnderflow 0)).fault = some (.stackUnderflow 0) ∧ refusable .tick = true := by decide

theorem witness_FaultsChangeOnlyTheLatch :
    (Txn.keypress 16 true).response State.reset = .faulted (.keyIndexOutOfRange 16) := by rfl

theorem witness_EachInstructionRaisesOnlyItsFaults : ∃ t, State.reset.fault = none ∧
    exec .ret State.reset = .next t ∧ t.fault = some (.stackUnderflow 0) := ⟨_, rfl, rfl, rfl⟩

theorem witness_DecodeOfEncode : (Instr.drw 15 15 15).wellFormed = true := by decide

theorem witness_EncodeOfDecode : decode 0xDFFF = some (.drw 15 15 15) := by decide

theorem witness_DecodeAgreesWithTheOpcodeTable :
    rowOf (.ldLoad 0) ∈ opcodeTable ∧ (rowOf (.ldLoad 0)).holds 0xFF65 = true := by decide

theorem witness_UnsupportedWordsFault : (start [] 0x9120).fault = none ∧ (start [] 0x9120).fetch = .ok 0x9120 ∧
    unsupportedWord 0x9120 ∧ unsupportedWord 0x00E1 ∧ unsupportedWord 0x5121 ∧ unsupportedWord 0x8126 ∧
    unsupportedWord 0xF11F ∧ ¬ unsupportedWord 0x8125 :=
  ⟨rfl, rfl, by simp [unsupportedWord], by simp [unsupportedWord], by simp [unsupportedWord], by simp [unsupportedWord],
    by simp [unsupportedWord], by simp [unsupportedWord]⟩

theorem witness_EveryStepKeepsTheInvariant : ∃ s t, Inv s ∧ step s = .next t ∧ t.pc = 0x204 :=
  ⟨_, _, witness_inv, rfl, rfl⟩

theorem witness_EveryTransactionKeepsTheInvariant : ∃ s, Inv s := ⟨_, witness_inv⟩

theorem witness_TimersAreTouchedOnlyByTickTimers :
    Txn.tick ≠ .tickTimers ∧ Txn.tick ≠ .reset := by decide

theorem witness_TimersAtZeroStayAtZero : State.reset.delay = 0 ∧ State.reset.sound = 0 := by decide

theorem witness_JpSetsPc : State.reset.pc.toNat = (0x200 : Addr).toNat := by decide

theorem witness_KeysHaveNoEffectOnExecution : ((Txn.keypress 15 true).after State.reset).keys ≠ State.reset.keys := by
  decide

theorem witness_DisplayChangesOnlyByDrawing : let s := lit 5 (start [] 0x00E0)
    (Txn.tick.after s).pixel 5 ≠ s.pixel 5 := by decide +kernel

theorem witness_RamChangesOnlyByStoreLoadReset : let s := (start [(0, 9)] 0xF155).setIndex 0x50
    (Txn.tick.after s).byte 0x50 ≠ s.byte 0x50 ∧ ((Txn.load [7]).after State.reset).byte 0x200 ≠ State.reset.byte 0x200 := by
  decide

theorem witness_StackChangesOnlyByCallAndReturn :
    (ticked (start [] 0x2300)).slot 0 ≠ (start [] 0x2300).slot 0 ∧
    (ticked { start [] 0x00EE with sp := 16 }).sp ≠ 16 := by decide

theorem witness_VfChangesOnlyByFlagWritersAndAsDestination :
    ∃ t, exec (.ldImm 15 1) State.reset = .next t ∧ t.reg 15 ≠ State.reset.reg 15 := ⟨_, rfl, by decide⟩

theorem witness_RetPopsOrUnderflows : 0 < (State.reset.sp.val + 1) ∧ State.reset.sp.val = 0 ∧
    0 < ({ State.reset with sp := 1 } : State).sp.val := by decide

theorem witness_JumpToSelfLeavesTheStateUnchanged : (start [] 0x1200).fault = none ∧
    (start [] 0x1200).pc = (0x200 : Addr).setWidth 16 ∧
    (start [] 0x1200).fetch = .ok (0x1000 + (0x200 : Addr).setWidth 16) := ⟨rfl, rfl, rfl⟩

theorem witness_CallPushesOrOverflows : ({ State.reset with sp := 15 } : State).sp.val < 16 ∧
    ({ State.reset with sp := 16 } : State).sp.val = 16 := by decide

theorem witness_SeRegSkipsOnEqual : 0 < 1 ∧ 1 < 16 ∧ 0 < 15 ∧ 15 < 16 := by decide

theorem witness_AddRegWritesCarryThenSum : let s := start [(1, 250), (2, 10)] 0
    1 = (if (s.reg 1).toNat + (s.reg 2).toNat > 255 then 1 else 0) := by decide

theorem witness_SubWritesNoBorrowThenDifference : let s := start [(1, 250), (2, 10)] 0
    1 = (if (s.reg 1).toNat > (s.reg 2).toNat then 1 else 0) ∧
    0 = (if (s.reg 1).toNat > (s.reg 1).toNat then 1 else 0) := by decide

theorem witness_AddIAddsOrOverflows : let s := (start [(0, 0x0F), (1, 0x10)] 0).setIndex 0xFFF0
    s.index.toNat + (s.reg 0).toNat ≤ 0xFFFF ∧ 0xFFFF < s.index.toNat + (s.reg 1).toNat := by decide

/-- Both edges of the storable range: 80 to 94, and 4081 to 4095. -/
theorem witness_LdStoreStoresTheRegistersBelowX :
    (∀ i, i < (15 : Reg).val → 80 ≤ (State.reset.setIndex 80).effAddr i ∧ (State.reset.setIndex 80).effAddr i < 4096) ∧
    (∀ i, i < (15 : Reg).val → 80 ≤ (State.reset.setIndex 4081).effAddr i ∧
      (State.reset.setIndex 4081).effAddr i < 4096) := by decide

/-- The second address is the first past RAM; the first address is the last of the font table. -/
theorem witness_LdStoreFaultsAtTheFirstBadAddress :
    (1 < (2 : Reg).val ∧ (∀ j, j < 1 → 80 ≤ (State.reset.setIndex 0xFFF).effAddr j ∧
      (State.reset.setIndex 0xFFF).effAddr j < 4096) ∧ 4096 ≤ (State.reset.setIndex 0xFFF).effAddr 1) ∧
    (0 < (1 : Reg).val ∧ (∀ j, j < 0 → 80 ≤ (State.reset.setIndex 79).effAddr j ∧
      (State.reset.setIndex 79).effAddr j < 4096) ∧ (State.reset.setIndex 79).effAddr 0 < 80) := by decide

theorem witness_LdLoadLoadsTheRegistersBelowX : ∀ i, i < (15 : Reg).val → (State.reset.setIndex 4081).effAddr i < 4096 := by
  decide

theorem witness_LdLoadFaultsAtTheFirstBadAddress : 2 < (3 : Reg).val ∧
    (∀ j, j < 2 → (State.reset.setIndex 0xFFE).effAddr j < 4096) ∧ 4096 ≤ (State.reset.setIndex 0xFFE).effAddr 2 := by
  decide

theorem witness_StoreThenLoadRestoresTheRegisters : let s := (start [(0, 7)] 0).setIndex 80
    ∃ t u : State, (∀ i, i < (1 : Reg).val → 80 ≤ s.effAddr i ∧ s.effAddr i < 4096) ∧
      exec (.ldStore 1) s = .next t ∧ u.index = t.index ∧ (∀ a, u.byte a = t.byte a) ∧ u.reg 0 ≠ s.reg 0 :=
  let s := (start [(0, 7)] 0).setIndex 80
  let t : State := { s.advance with mem := s.mem.write 80 7 }
  ⟨t, t.setReg 0 1, by decide, rfl, rfl, fun _ => rfl, by decide⟩

theorem witness_StoredWordIsExecuted : let s := (start [(0, 0x6A), (1, 0x42)] 0).setIndex 0x300
    ∃ t, s.fault = none ∧ 2 ≤ (2 : Reg).val ∧ (∀ j, j < (2 : Reg).val → 80 ≤ s.effAddr j ∧ s.effAddr j < 4096) ∧
      exec (.ldStore 2) s = .next t ∧ decode (s.reg 0 ++ s.reg 1) = some (.ldImm 0xA 0x42) :=
  ⟨_, rfl, by decide, by decide, rfl, rfl⟩

theorem witness_DisplayAccessIsChecked : 2048 ≤ 2048 ∧ 2047 < 2048 := by decide

/-- The last pixel from the last byte of RAM. -/
theorem witness_DrwTogglesByByteEquality : let s := (start [(0, 63), (1, 31)] 0).setIndex 0xFFF
    ∀ r, r < 1 → s.effAddr r < 4096 ∧ pixelBase (s.reg 0) (s.reg 1) + r < 2048 := by decide

/-- The second row is the first byte past RAM; with `I` lower, the second pixel is the first past the display. -/
theorem witness_DrwFaultsAtTheFirstBadRow :
    let s := (start [(0, 63), (1, 31)] 0).setIndex 0xFFF
    let u := s.setIndex 0x300
    (1 < 2 ∧ (∀ q, q < 1 → s.effAddr q < 4096 ∧ pixelBase (s.reg 0) (s.reg 1) + q < 2048) ∧ 4096 ≤ s.effAddr 1) ∧
    ((∀ q, q < 1 → u.effAddr q < 4096 ∧ pixelBase (u.reg 0) (u.reg 1) + q < 2048) ∧ u.effAddr 1 < 4096 ∧
      2048 ≤ pixelBase (u.reg 0) (u.reg 1) + 1) := by decide

theorem witness_DrawingAGlyphChangesNoPixel : let s := State.reset.setIndex 75
    (∀ a, a < 80 → s.byte a = fontByte a) ∧ 15 < 16 ∧ s.index.toNat = 5 * 15 ∧ 1 ≤ 5 ∧ 5 ≤ 5 ∧
      pixelBase (s.reg 0) (s.reg 1) + 5 ≤ 2048 := ⟨fun a ha => by simp [resetByte, ha], by decide⟩

theorem witness_RamAccessIsChecked : 4096 ≤ 4096 ∧ 4095 < 4096 ∧ 79 < 80 ∧ 80 ≤ 80 ∧ 80 < 4096 := by decide

theorem witness_LoadCopiesTheProgram : State.reset.fault = none ∧ (List.replicate 3584 (0x11 : Byte)).length ≤ 3584 :=
  ⟨rfl, by rw [List.length_replicate]⟩

theorem witness_LoadTooLongFaults : State.reset.fault = none ∧ 3584 < (List.replicate 3585 (0x11 : Byte)).length :=
  ⟨rfl, by rw [List.length_replicate]; decide⟩

theorem witness_KeypressSetsOneKey : (State.reset.takeFault (.stackUnderflow 0)).fault = some (.stackUnderflow 0) ∧
    State.reset.fault = none ∧ 16 ≤ 16 ∧ 15 < 16 := by decide

theorem witness_TickTimersCountsDown : ({ State.reset with delay := 2, sound := 1 } : State).fault = none := rfl

end Sys2Proof.Tests
end

/-! ## The state: reset, and the elements no instruction reads (10_state.md R27, R28, R33)

The timers and the keys are the elements `withHostInputs` replaces. Two facts about them carry the family: replacing them
commutes with `step` (`step_withHostInputs`), and the transactions keep them (`SameHostInputs`). -/

section
namespace Sys2Proof.Proofs.HostInputs

open Sys2Proof.Machine Sys2Proof.Safety

/-! ### Replacing the keys and timers commutes with every operation

The operations that answer a state without a check commute by definition; the checked ones do so under `Except.map`. -/

section Commutes

variable (k : Vector Bool 16) (d v : Byte)

/-- The end of an instruction, when the state it began in and the one it answers are both replaced. -/
theorem commit_withHostInputs (s : State) (r : Except Fault State) :
    (withHostInputs k d v s).commit (r.map (withHostInputs k d v)) = mapNext (withHostInputs k d v) (s.commit r) := by
  cases r <;> rfl

theorem memWrite_withHostInputs (s : State) (a : Nat) (b : Byte) :
    (withHostInputs k d v s).memWrite a b = (s.memWrite a b).map (withHostInputs k d v) := by
  rw [State.memWrite_eq, State.memWrite_eq]
  split
  · rfl
  · split <;> rfl

theorem dispWrite_withHostInputs (s : State) (p : Nat) (b : Bool) :
    (withHostInputs k d v s).dispWrite p b = (s.dispWrite p b).map (withHostInputs k d v) := by
  unfold State.dispWrite
  rw [apply_dite (Except.map (withHostInputs k d v))]
  rfl

theorem push_withHostInputs (s : State) (w : Word) :
    (withHostInputs k d v s).push w = (s.push w).map (withHostInputs k d v) := by
  unfold State.push
  rw [apply_dite (Except.map (withHostInputs k d v))]
  rfl

theorem popPc_withHostInputs (s : State) :
    (withHostInputs k d v s).popPc = s.popPc.map (withHostInputs k d v) := by
  unfold State.popPc
  rw [apply_ite (Except.map (withHostInputs k d v))]
  rfl

theorem skipIf_withHostInputs (s : State) (c : Bool) :
    (withHostInputs k d v s).skipIf c = withHostInputs k d v (s.skipIf c) := by
  cases c <;> rfl

theorem storeRegs_withHostInputs (count : Nat) : ∀ (s : State) (i : Nat),
    (withHostInputs k d v s).storeRegs count i = (s.storeRegs count i).map (withHostInputs k d v) := by
  induction count with
  | zero => exact fun _ _ => rfl
  | succ count ih =>
    intro s i
    have hw : (withHostInputs k d v s).memWrite ((withHostInputs k d v s).effAddr i)
          ((withHostInputs k d v s).reg (regNumber i)) =
        (s.memWrite (s.effAddr i) (s.reg (regNumber i))).map (withHostInputs k d v) :=
      memWrite_withHostInputs k d v s _ _
    simp only [State.storeRegs, hw]
    cases s.memWrite (s.effAddr i) (s.reg (regNumber i)) with
    | error f => rfl
    | ok t => exact ih t (i + 1)

theorem loadRegs_withHostInputs (count : Nat) : ∀ (s : State) (i : Nat),
    (withHostInputs k d v s).loadRegs count i = (s.loadRegs count i).map (withHostInputs k d v) := by
  induction count with
  | zero => exact fun _ _ => rfl
  | succ count ih =>
    intro s i
    have hr : (withHostInputs k d v s).memRead ((withHostInputs k d v s).effAddr i) = s.memRead (s.effAddr i) := rfl
    simp only [State.loadRegs, hr]
    cases s.memRead (s.effAddr i) with
    | error f => rfl
    | ok b => exact ih (s.setReg (regNumber i) b) (i + 1)

theorem toggleRow_withHostInputs (s : State) (p : Nat) (b : Byte) (cur : Bool) :
    (withHostInputs k d v s).toggleRow p b cur = (s.toggleRow p b cur).map (withHostInputs k d v) := by
  unfold State.toggleRow
  by_cases hb : b = 0xFF
  · cases cur with
    | false => simpa [hb] using dispWrite_withHostInputs k d v s p true
    | true =>
      simp only [if_pos hb, if_true, dispWrite_withHostInputs]
      cases s.dispWrite p false <;> rfl
  · simp only [if_neg hb]; rfl

theorem drawRow_withHostInputs (s : State) (base row : Nat) :
    (withHostInputs k d v s).drawRow base row = (s.drawRow base row).map (withHostInputs k d v) := by
  have hr : ((withHostInputs k d v s).setFlag 0).memRead ((withHostInputs k d v s).effAddr row) =
      (s.setFlag 0).memRead (s.effAddr row) := rfl
  have hp : ((withHostInputs k d v s).setFlag 0).dispRead (base + row) = (s.setFlag 0).dispRead (base + row) := rfl
  simp only [State.drawRow, hr, hp]
  cases (s.setFlag 0).memRead (s.effAddr row) with
  | error f => rfl
  | ok b =>
    cases (s.setFlag 0).dispRead (base + row) with
    | error f => rfl
    | ok cur => exact toggleRow_withHostInputs k d v (s.setFlag 0) (base + row) b cur

theorem drawRows_withHostInputs (base count : Nat) : ∀ (s : State) (row : Nat),
    (withHostInputs k d v s).drawRows base count row = (s.drawRows base count row).map (withHostInputs k d v) := by
  induction count with
  | zero => exact fun _ _ => rfl
  | succ count ih =>
    intro s row
    simp only [State.drawRows, drawRow_withHostInputs]
    cases s.drawRow base row with
    | error f => rfl
    | ok t => exact ih t (row + 1)

/-- No instruction reads the keys or the timers: with others it answers the same outcome with those. -/
theorem exec_withHostInputs (i : Instr) (s : State) :
    exec i (withHostInputs k d v s) = mapNext (withHostInputs k d v) (exec i s) := by
  have hcommit := commit_withHostInputs k d v s
  cases i
  case ret => exact (congrArg _ (popPc_withHostInputs k d v s.advance)).trans (hcommit _)
  case call nnn =>
    have hpush : (withHostInputs k d v s).advance.push (withHostInputs k d v s).advance.pc =
        (s.advance.push s.advance.pc).map (withHostInputs k d v) := push_withHostInputs k d v s.advance _
    simp only [exec, execCall, hpush]
    cases s.advance.push s.advance.pc <;> rfl
  case seImm x kk => exact congrArg _ (skipIf_withHostInputs k d v s.advance _)
  case sneImm x kk => exact congrArg _ (skipIf_withHostInputs k d v s.advance _)
  case seReg x y => exact congrArg _ (skipIf_withHostInputs k d v s.advance _)
  case drw x y n => exact (congrArg _ (drawRows_withHostInputs k d v _ n s.advance 0)).trans (hcommit _)
  case addI x =>
    simp only [exec, execAddI]
    rw [apply_ite (mapNext (withHostInputs k d v))]
    rfl
  case ldStore x => exact (congrArg _ (storeRegs_withHostInputs k d v x.val s.advance 0)).trans (hcommit _)
  case ldLoad x => exact (congrArg _ (loadRegs_withHostInputs k d v x.val s.advance 0)).trans (hcommit _)
  all_goals rfl

theorem fetchExecute_withHostInputs (s : State) :
    fetchExecute (withHostInputs k d v s) = mapNext (withHostInputs k d v) (fetchExecute s) := by
  have hf : (withHostInputs k d v s).fetch = s.fetch := rfl
  simp only [fetchExecute, hf]
  cases s.fetch with
  | error f => rfl
  | ok w =>
    dsimp only
    cases decode w with
    | none => rfl
    | some i => exact exec_withHostInputs k d v i s

/-- A step reads neither the keys nor the timers. -/
theorem step_withHostInputs (s : State) :
    step (withHostInputs k d v s) = mapNext (withHostInputs k d v) (step s) := by
  have hl : (withHostInputs k d v s).fault = s.fault := rfl
  simp only [step, tick, hl]
  cases s.fault with
  | some f => rfl
  | none => exact fetchExecute_withHostInputs k d v s

end Commutes

/-! ### What the transactions leave unchanged -/

/-- The keys and the timers read in `t` as in `s`. -/
structure SameHostInputs (s t : State) : Prop where
  keys : t.keys = s.keys
  delay : t.delay = s.delay
  sound : t.sound = s.sound

theorem SameHostInputs.refl (s : State) : SameHostInputs s s := ⟨rfl, rfl, rfl⟩

theorem SameHostInputs.takeFault (s : State) (f : Fault) : SameHostInputs s (s.takeFault f) := ⟨rfl, rfl, rfl⟩

/-- A step writes neither the keys nor the timers. -/
theorem step_sameHostInputs {s t : State} (h : step s = .next t) : SameHostInputs s t := by
  obtain ⟨-, ⟨f, rfl⟩ | ⟨i, -, hi⟩⟩ := step_cases h
  · exact .takeFault s f
  · obtain ⟨f, rfl, -⟩ | hc := exec_cases hi
    · exact .takeFault s f
    · obtain ⟨hkeys, hdelay, hsound, -⟩ := hc.host
      exact ⟨hkeys, hdelay, hsound⟩

theorem tick_sameHostInputs (s : State) : SameHostInputs s (Txn.tick.after s) := by
  rcases tick_after_cases s with h | h
  · rw [h]; exact .refl s
  · exact step_sameHostInputs h

/-- The refusal of R154 leaves the state; otherwise the transaction takes its course. -/
theorem unlessFaulted_cases (s : State) (r : State × Response) :
    (s.unlessFaulted r).1 = s ∨ s.unlessFaulted r = r := by
  unfold State.unlessFaulted
  cases s.fault
  · exact .inr rfl
  · exact .inl rfl

theorem load_sameHostInputs (data : List Byte) (s : State) : SameHostInputs s ((Txn.load data).after s) := by
  simp only [Txn.after, Txn.run, loadTxn, loadWith]
  rcases unlessFaulted_cases s _ with h | h <;> rw [h]
  · exact .refl s
  · split
    · exact .takeFault s _
    · next hlen =>
      have hshort : data.length ≤ 3584 := Nat.le_of_not_lt hlen
      obtain ⟨hpoke, -⟩ := State.pokeAll_spec data s 0x200 (by omega)
      rw [hpoke]; exact ⟨rfl, rfl, rfl⟩

theorem tickTimers_after_keys (s : State) : (Txn.tickTimers.after s).keys = s.keys := by
  simp only [Txn.after, Txn.run, tickTimersTxn]
  rcases unlessFaulted_cases s _ with h | h <;> rw [h]

theorem keypress_after_timers (index : Nat) (pressed : Bool) (s : State) :
    ((Txn.keypress index pressed).after s).delay = s.delay ∧
    ((Txn.keypress index pressed).after s).sound = s.sound := by
  simp only [Txn.after, Txn.run, keypressTxn]
  rcases unlessFaulted_cases s _ with h | h <;> rw [h]
  · exact ⟨rfl, rfl⟩
  · split <;> exact ⟨rfl, rfl⟩

/-! ### The obligations -/

/-- Settles O16: only `tick_timers` and reset write the timers, and replacing them commutes with a step. -/
theorem timersAreTouchedOnlyByTickTimers : Obligations.TimersAreTouchedOnlyByTickTimers := by
  unfold Obligations.TimersAreTouchedOnlyByTickTimers
  refine ⟨fun t s htimers hreset => ?_, fun s d v => step_withHostInputs s.keys d v s⟩
  cases t with
  | reset => exact absurd rfl hreset
  | load data => exact ⟨(load_sameHostInputs data s).delay, (load_sameHostInputs data s).sound⟩
  | tick => exact ⟨(tick_sameHostInputs s).delay, (tick_sameHostInputs s).sound⟩
  | tickTimers => exact absurd rfl htimers
  | keypress index pressed => exact keypress_after_timers index pressed s
  | getDisplay => exact ⟨rfl, rfl⟩

/-- Settles O18: only `keypress` and reset write the keys, and replacing them commutes with a step, which keeps the
timers. -/
theorem keysHaveNoEffectOnExecution : Obligations.KeysHaveNoEffectOnExecution := by
  unfold Obligations.KeysHaveNoEffectOnExecution
  refine ⟨fun t s hkeys => ?_, fun s k => ?_⟩
  · cases t with
    | reset => exact .inl rfl
    | load data => exact absurd (load_sameHostInputs data s).keys hkeys
    | tick => exact absurd (tick_sameHostInputs s).keys hkeys
    | tickTimers => exact absurd (tickTimers_after_keys s) hkeys
    | keypress index pressed => exact .inr ⟨index, pressed, rfl⟩
    | getDisplay => exact absurd rfl hkeys
  · rw [step_withHostInputs]
    cases h : step s with
    | next t =>
      obtain ⟨-, hdelay, hsound⟩ := step_sameHostInputs h
      simp only [mapNext, hdelay, hsound]
    | fault f => rfl
    | refused r => rfl

/-- Settles O1: the reset state's readings, element by element (R33). -/
theorem resetGivesTheResetState : Obligations.ResetGivesTheResetState := by
  unfold Obligations.ResetGivesTheResetState
  intro s
  have hkeys (k : Nat) (hk : k < 16) : State.reset.keys[k]? = some false := by simp [State.reset, hk]
  have hfont (a : Nat) (ha : a < 80) : State.reset.byte a = fontByte a := by simp [resetByte, ha]
  have hzero (a : Nat) (ha : 80 ≤ a) (_ : a < 4096) : State.reset.byte a = 0 := by simp [resetByte, ha]
  have hpixels (p : Nat) (hp : p < 2048) : State.reset.display[p]? = some false := by simp [State.reset, hp]
  exact ⟨rfl, State.reset_reg, State.reset_pc, State.reset_index, fun j _ => State.reset_slot j, State.reset_sp,
    State.reset_delay, State.reset_sound, hkeys, hfont, hzero, hpixels, State.reset_fault⟩

end Sys2Proof.Proofs.HostInputs
end

/-! ## Memory and display (20_memory.md R47) -/

section
namespace Sys2Proof.Proofs.MemorySpaces

open Sys2Proof.Machine Sys2Proof.Safety

/-- A state that is `s` with another display keeps every other part of `s`. -/
theorem unchangedBut_display {s t : State} (h : t = { s with display := t.display }) : UnchangedBut [.display] s t := by
  refine unchangedBut_of_parts fun p => ?_
  rw [h]
  cases p with
  | display => exact .inl (List.mem_singleton.mpr rfl)
  | regs | ram => exact .inr fun _ => rfl
  | index | pc | stack | sp | delay | sound | keys | fault => exact .inr rfl

/-- Settles O46: both raise at 2048 and above; below, the read answers the pixel, and `dispWrite_spec` gives the written
pixel, the other pixels and the frame. -/
theorem displayAccessIsChecked : Obligations.DisplayAccessIsChecked := by
  unfold Obligations.DisplayAccessIsChecked
  intro s p b
  obtain ⟨hraises, hwrites⟩ := s.dispWrite_spec p b
  rw [State.dispRead_eq]
  refine ⟨fun hout => ⟨if_pos hout, hraises hout⟩, fun hin => ⟨if_neg (Nat.not_le.mpr hin), ?_⟩⟩
  obtain ⟨t, hok, hframe, hpixel⟩ := hwrites hin
  have hset : t.pixel p = b := by rw [hpixel, if_pos rfl]
  have hothers (q : Nat) (hq : q ≠ p) : t.pixel q = s.pixel q := by rw [hpixel, if_neg hq]
  exact ⟨t, hok, hset, hothers, unchangedBut_display hframe⟩

end Sys2Proof.Proofs.MemorySpaces
end

/-! ## Encoding and the execution cycle (30_encoding.md R61, R63 to R68)

The decoder is read backwards one group at a time: what each group's function answers, and where it answers nothing. -/

section
namespace Sys2Proof.Proofs.Encoding

open Sys2Proof.Machine Sys2Proof.Safety

/-! ### A word laid out again from its own fields (R61, R63) -/

theorem wordNNN_fields {w : Word} {op : Nat} (hop : (d1 w).toNat = op) : wordNNN op (fieldNNN w) = w := by
  have hw := w.isLt
  rw [d1_toNat] at hop
  apply BitVec.eq_of_toNat_eq
  simp only [wordNNN, BitVec.toNat_ofNat, fieldNNN_toNat]
  omega

theorem wordXKK_fields {w : Word} {op : Nat} (hop : (d1 w).toNat = op) : wordXKK op (fieldX w) (fieldKK w) = w := by
  have hw := w.isLt
  rw [d1_toNat] at hop
  apply BitVec.eq_of_toNat_eq
  simp only [wordXKK, BitVec.toNat_ofNat, fieldX_val, fieldKK_toNat]
  omega

theorem wordXYN_fields {w : Word} {op d : Nat} (hop : (d1 w).toNat = op) (hd : (d4 w).toNat = d) :
    wordXYN op (fieldX w) (fieldY w) d = w := by
  have hw := w.isLt
  rw [d1_toNat] at hop
  rw [d4_toNat] at hd
  apply BitVec.eq_of_toNat_eq
  simp only [wordXYN, BitVec.toNat_ofNat, fieldX_val, fieldY_val]
  omega

theorem wordX_fields {w : Word} {op low : Nat} (hop : (d1 w).toNat = op) (hlow : (fieldKK w).toNat = low) :
    wordX op (fieldX w) low = w := by
  subst hlow
  exact wordXKK_fields hop

/-! ### Decoding ignores no bit (R68) -/

/-- The instruction has an encoding, and the word is it. -/
def IsWordOf (w : Word) (i : Instr) : Prop := i.wellFormed = true ∧ encode i = w

theorem isWordOf_of_decode0 {w : Word} {i : Instr} (h : decode0 w = some i) : IsWordOf w i := by
  unfold decode0 at h
  split_ifs at h with hnop hcls hret
  · cases h; exact ⟨rfl, hnop.symm⟩
  · cases h; exact ⟨rfl, hcls.symm⟩
  · cases h; exact ⟨rfl, hret.symm⟩

theorem isWordOf_of_decode5 {w : Word} {i : Instr} (hop : (d1 w).toNat = 0x5) (h : decode5 w = some i) :
    IsWordOf w i := by
  unfold decode5 at h
  split_ifs at h with hd
  cases h
  exact ⟨rfl, wordXYN_fields hop (congrArg BitVec.toNat hd)⟩

theorem isWordOf_of_decode8 {w : Word} {i : Instr} (hop : (d1 w).toNat = 0x8) (h : decode8 w = some i) :
    IsWordOf w i := by
  unfold decode8 at h
  split at h
  case h_7 => cases h
  all_goals cases h; exact ⟨rfl, wordXYN_fields hop ‹_›⟩

theorem isWordOf_of_decodeF {w : Word} {i : Instr} (hop : (d1 w).toNat = 0xF) (h : decodeF w = some i) :
    IsWordOf w i := by
  unfold decodeF at h
  split_ifs at h with hkk hkk hkk hkk
  all_goals cases h; exact ⟨rfl, wordX_fields hop (congrArg BitVec.toNat hkk)⟩

theorem isWordOf_of_decode {w : Word} {i : Instr} (h : decode w = some i) : IsWordOf w i := by
  unfold decode at h
  split at h
  · exact isWordOf_of_decode0 h
  · next hop => cases h; exact ⟨rfl, wordNNN_fields hop⟩
  · next hop => cases h; exact ⟨rfl, wordNNN_fields hop⟩
  · next hop => cases h; exact ⟨rfl, wordXKK_fields hop⟩
  · next hop => cases h; exact ⟨rfl, wordXKK_fields hop⟩
  · next hop => exact isWordOf_of_decode5 hop h
  · next hop => cases h; exact ⟨rfl, wordXKK_fields hop⟩
  · next hop => cases h; exact ⟨rfl, wordXKK_fields hop⟩
  · next hop => exact isWordOf_of_decode8 hop h
  · next hop => cases h; exact ⟨rfl, wordNNN_fields hop⟩
  · next hop =>
    cases h
    exact ⟨decide_eq_true (Nat.le_of_lt_succ (d4 w).isLt), wordXYN_fields hop rfl⟩
  · next hop => exact isWordOf_of_decodeF hop h
  · cases h

/-- Settles O10: group by group, the word is laid out again from its own fields. -/
theorem encodeOfDecode : Obligations.EncodeOfDecode := by
  unfold Obligations.EncodeOfDecode
  exact fun _ _ h => isWordOf_of_decode h

/-! ### The unsupported words (R66) -/

theorem decode0_eq_none_iff (w : Word) : decode0 w = none ↔ w.toNat ≠ 0x0000 ∧ w.toNat ≠ 0x00E0 ∧ w.toNat ≠ 0x00EE := by
  simp [decode0, ite_eq_iff, ← BitVec.toNat_inj]

theorem decode5_eq_none_iff (w : Word) : decode5 w = none ↔ w.toNat % 0x10 ≠ 0 := by
  simp [decode5, ← BitVec.toNat_inj, d4_toNat]

theorem decode8_eq_none_iff (w : Word) : decode8 w = none ↔ 6 ≤ w.toNat % 0x10 := by
  unfold decode8
  rw [d4_toNat]
  split
  case h_7 => simp only [imp_false, true_iff] at *; omega
  all_goals simp only [reduceCtorEq, false_iff]; omega

theorem decodeF_eq_none_iff (w : Word) : decodeF w = none ↔
    w.toNat % 0x100 ≠ 0x1E ∧ w.toNat % 0x100 ≠ 0x29 ∧ w.toNat % 0x100 ≠ 0x55 ∧ w.toNat % 0x100 ≠ 0x65 := by
  simp [decodeF, ite_eq_iff, ← BitVec.toNat_inj, fieldKK_toNat]

/-- The decoder's arms in order: the first, sixth, ninth and twelfth are the groups 0, 5, 8 and F, which answer nothing on
part of their words; the last is the groups with no instruction, and every other arm answers one. -/
theorem decode_eq_none_iff (w : Word) : decode w = none ↔ unsupportedWord w.toNat := by
  have hlt := w.isLt
  unfold decode unsupportedWord
  rw [d1_toNat]
  split
  case h_1 => rw [decode0_eq_none_iff]; omega
  case h_6 => rw [decode5_eq_none_iff]; omega
  case h_9 => rw [decode8_eq_none_iff]; omega
  case h_12 => rw [decodeF_eq_none_iff]; omega
  case h_13 => simp only [imp_false, true_iff] at *; omega
  all_goals simp only [reduceCtorEq, false_iff]; omega

/-! ### The step (R64, R153, R154) -/

theorem step_of_faulted {s : State} {f : Fault} (h : s.fault = some f) : step s = .fault f := by
  simp only [step, tick, h]

/-- With no fault latched a step is the cycle of R64. -/
theorem step_of_unlatched {s : State} (h0 : s.fault = none) : step s = fetchExecute s := by
  simp only [step, tick, h0]

theorem step_of_fetch_error {s : State} {f : Fault} (h0 : s.fault = none) (hw : s.fetch = .error f) :
    step s = .next (s.takeFault f) := by
  simp only [step_of_unlatched h0, fetchExecute, hw, State.commit]

theorem step_of_unsupported {s : State} {w : Word} (h0 : s.fault = none) (hw : s.fetch = .ok w)
    (hi : decode w = none) : step s = .next (s.takeFault (.unsupportedOpcode w)) := by
  simp only [step_of_unlatched h0, fetchExecute, hw, hi, State.commit]

theorem step_of_executes {s : State} {i : Instr} (h : Executes s i) : step s = exec i s := by
  obtain ⟨h0, w, hw, hi⟩ := h
  simp only [step_of_unlatched h0, fetchExecute, hw, hi]

/-- Settles O12: the classes of R66 are where the decoder's groups answer nothing, and the step of such a word is the
entry into `UnsupportedOpcode`. -/
theorem unsupportedWordsFault : Obligations.UnsupportedWordsFault := by
  unfold Obligations.UnsupportedWordsFault
  exact ⟨decode_eq_none_iff, fun _ w h0 hw hu => step_of_unsupported h0 hw ((decode_eq_none_iff w).mpr hu)⟩

/-- Settles O3: the latch, then the bound of the fetch, then the decoder decide which of the step's four rules applies. -/
theorem stepRunsTheDecodedInstruction : Obligations.StepRunsTheDecodedInstruction := by
  unfold Obligations.StepRunsTheDecodedInstruction
  refine fun s => ⟨fun f => step_of_faulted, fun h0 hout => ?_, fun h0 hin => ?_⟩
  · have hw := s.fetch_eq
    rw [if_neg (Nat.not_le.mpr hout)] at hw
    exact step_of_fetch_error h0 hw
  · have hw := s.fetch_eq
    rw [if_pos hin] at hw
    exact ⟨fun i hi => step_of_executes ⟨h0, _, hw, hi⟩, step_of_unsupported h0 hw⟩

end Sys2Proof.Proofs.Encoding
end

/-! ## Control flow (40_control_flow.md R80 to R87)

Each instruction's successful answer is one state update: `setPc` for the jump, the skips and NOP, a pop or a push before it
for RET and CALL. Their frames all come from one fact about the three parts such an update may touch. -/

section
namespace Sys2Proof.Proofs.ControlFlow

open Sys2Proof.Machine Sys2Proof.Safety
open Sys2Proof.Laws

/-! ### Frames -/

/-- A state that is `s` with another `PC`, `SP` and stack keeps every other part of `s`. -/
theorem unchangedBut_control {s t : State} (h : t = { s with pc := t.pc, sp := t.sp, stack := t.stack }) :
    UnchangedBut [.pc, .sp, .stack] s t := by
  refine unchangedBut_of_parts fun p => ?_
  rw [h]
  cases p with
  | pc | sp | stack => left; decide
  | regs | ram => exact .inr fun _ => rfl
  | index | delay | sound | keys | display | fault => exact .inr rfl

/-- A frame narrows by a part that reads the same. -/
theorem unchangedBut_of_append {s t : State} {changed : List Part} {q : Part} (h : UnchangedBut (changed ++ [q]) s t)
    (hq : q.Same s t) : UnchangedBut changed s t := by
  intro p hp
  by_cases hpq : p = q
  · rwa [hpq]
  · exact h p (by simp [hp, hpq])

theorem unchangedBut_pop (s : State) (v : Word) : UnchangedBut [.pc, .sp] s (s.dropSlot.setPc v) :=
  unchangedBut_of_append (q := .stack) (unchangedBut_control rfl) rfl

/-- Setting `PC` is all that `setPc` does. -/
theorem movesPc_setPc (s : State) (v : Word) : MovesPc s (s.setPc v) v := by
  have hkeepsStack : UnchangedBut [.pc, .sp] s (s.setPc v) :=
    unchangedBut_of_append (q := .stack) (unchangedBut_control rfl) rfl
  exact ⟨rfl, unchangedBut_of_append (q := .sp) hkeepsStack rfl⟩

/-- A skip, after the fetch's advance, moves `PC` by 4 when taken and by 2 when not (R80). -/
theorem movesPc_skip (s : State) (c : Bool) :
    MovesPc s (s.advance.skipIf c) (if c then s.pc + 4 else s.pc + 2) := by
  cases c with
  | false => exact movesPc_setPc s (s.pc + 2)
  | true =>
    have htwice : s.pc + 2 + 2 = s.pc + 4 := BitVec.add_assoc s.pc 2 2
    rw [if_pos rfl, ← htwice]
    exact movesPc_setPc s (s.pc + 2 + 2)

/-! ### What the instructions answer -/

theorem exec_jp (nnn : Addr) (s : State) : exec (.jp nnn) s = .next (s.setPc (zextAddr nnn)) := rfl

theorem exec_ret_of_pos {s : State} (h : 0 < s.sp.val) :
    exec .ret s = .next (s.dropSlot.setPc (s.slot (s.sp.val - 1))) :=
  congrArg s.commit (s.advance.popPc_spec.2 h)

theorem exec_ret_of_empty {s : State} (h : s.sp.val = 0) : exec .ret s = .next (s.takeFault (.stackUnderflow 0)) :=
  congrArg s.commit (s.advance.popPc_spec.1 h)

/-- A call whose push succeeds goes on from the pushed state at `nnn`. -/
theorem exec_call_of_push {s t : State} (nnn : Addr) (h : s.advance.push (s.pc + 2) = .ok t) :
    exec (.call nnn) s = .next (t.setPc (zextAddr nnn)) := by
  simp only [exec, execCall, State.advance_pc, h, State.commit_ok]

/-- A call whose push raises is the entry into that fault. -/
theorem exec_call_of_push_error {s : State} {f : Fault} (nnn : Addr) (h : s.advance.push (s.pc + 2) = .error f) :
    exec (.call nnn) s = .next (s.takeFault f) := by
  simp only [exec, execCall, State.advance_pc, h, State.commit_error]

/-! ### Decoding -/

/-- `5xyN` with N other than 0 is in the second class of R66. -/
theorem decode_5xyN_eq_none (x y : Reg) {n : Nat} (hpos : 0 < n) (hlt : n < 16) :
    decode (BitVec.ofNat 16 (0x5000 + x.val * 0x100 + y.val * 0x10 + n)) = none := by
  rw [Encoding.decode_eq_none_iff]
  have hw : (BitVec.ofNat 16 (0x5000 + x.val * 0x100 + y.val * 0x10 + n)).toNat =
      0x5000 + x.val * 0x100 + y.val * 0x10 + n := by
    rw [BitVec.toNat_ofNat]; omega
  rw [hw]
  exact .inr (.inl (by omega))

/-! ### The obligations -/

/-- Settles O24: the pop with a slot to pop, its fault without one. -/
theorem retPopsOrUnderflows : Obligations.RetPopsOrUnderflows := by
  unfold Obligations.RetPopsOrUnderflows
  exact ⟨RoundTrip.ret rfl, fun s h => ⟨_, exec_ret_of_pos h, rfl, rfl, unchangedBut_pop s _⟩,
    fun _ => exec_ret_of_empty⟩

/-- Settles O27: `push_spec` gives the pushed slot, the others and the frame, or the fault of a full stack. -/
theorem callPushesOrOverflows : Obligations.CallPushesOrOverflows := by
  unfold Obligations.CallPushesOrOverflows
  refine fun nnn => ⟨RoundTrip.call nnn rfl, fun s hroom => ?_, fun s hfull => ?_⟩
  · obtain ⟨t, hpush, hframe, hsp, hslot⟩ := (s.advance.push_spec (s.pc + 2)).2 hroom
    have hpushed : t.slot s.sp.val = s.pc + 2 := (hslot s.sp.val).trans (if_pos rfl)
    have hothers (j : Nat) (hj : j ≠ s.sp.val) : t.slot j = s.slot j := (hslot j).trans (if_neg hj)
    exact ⟨_, exec_call_of_push nnn hpush, hpushed, hothers, hsp, zextAddr_toNat nnn,
      unchangedBut_control (by rw [hframe]; rfl)⟩
  · exact exec_call_of_push_error nnn ((s.advance.push_spec (s.pc + 2)).1 hfull)

/-- Settles O23: NOP is the fetch's advance alone. -/
theorem nopOnlyAdvances : Obligations.NopOnlyAdvances := by
  unfold Obligations.NopOnlyAdvances
  exact ⟨RoundTrip.nop rfl, fun s => ⟨s.advance, rfl, movesPc_setPc s (s.pc + 2)⟩⟩

/-- Settles O25: JP is `setPc`, and setting `PC` to the value it has changes nothing. -/
theorem jpSetsPc : Obligations.JpSetsPc := by
  unfold Obligations.JpSetsPc
  refine fun nnn => ⟨RoundTrip.jp nnn rfl, fun s => ?_, fun s hself => ?_⟩
  · exact ⟨_, exec_jp nnn s, zextAddr_toNat nnn, (movesPc_setPc s _).2⟩
  · have hpc : zextAddr nnn = s.pc := BitVec.eq_of_toNat_eq ((zextAddr_toNat nnn).trans hself.symm)
    rw [exec_jp, hpc]
    rfl

/-- Settles O28: the skip on `V[x] == kk`. -/
theorem seImmSkipsOnEqual : Obligations.SeImmSkipsOnEqual := by
  unfold Obligations.SeImmSkipsOnEqual
  refine fun x kk => ⟨RoundTrip.seImm x kk rfl, fun s => ⟨s.advance.skipIf (s.reg x == kk), rfl, ?_⟩⟩
  simpa only [beq_iff_eq] using movesPc_skip s (s.reg x == kk)

/-- Settles O29: the skip on `V[x] != kk`, the branches exchanged. -/
theorem sneImmSkipsOnUnequal : Obligations.SneImmSkipsOnUnequal := by
  unfold Obligations.SneImmSkipsOnUnequal
  refine fun x kk => ⟨RoundTrip.sneImm x kk rfl, fun s => ⟨s.advance.skipIf (s.reg x != kk), rfl, ?_⟩⟩
  simpa only [bne_iff_ne, ite_not] using movesPc_skip s (s.reg x != kk)

/-- Settles O30: the skip on `V[x] == V[y]`, and `5xyN` is unsupported. -/
theorem seRegSkipsOnEqual : Obligations.SeRegSkipsOnEqual := by
  unfold Obligations.SeRegSkipsOnEqual
  refine fun x y => ⟨RoundTrip.seReg x y rfl, fun n => decode_5xyN_eq_none x y,
    fun s => ⟨s.advance.skipIf (s.reg x == s.reg y), rfl, ?_⟩⟩
  simpa only [beq_iff_eq] using movesPc_skip s (s.reg x == s.reg y)

end Sys2Proof.Proofs.ControlFlow
end

/-! ## Register loads and the ALU (41_alu.md R101 to R103)

These instructions write one register of the advanced state, so what they change and what they keep is one lemma,
`writesReg_setReg`; an obligation adds its decoding and the number of the byte it writes. -/

section
namespace Sys2Proof.Proofs.Alu

open Sys2Proof.Machine Sys2Proof.Safety
open Sys2Proof.Laws

/-! ### Frames -/

/-- A state that is `s` with another `PC` and register file keeps every other part of `s`. -/
theorem unchangedBut_registers {s t : State} (h : t = { s with pc := t.pc, regs := t.regs }) :
    UnchangedBut [.pc, .regs] s t := by
  refine unchangedBut_of_parts fun p => ?_
  rw [h]
  cases p with
  | pc | regs => left; decide
  | ram => exact .inr fun _ => rfl
  | index | stack | sp | delay | sound | keys | display | fault => exact .inr rfl

/-- A register write after the fetch's advance changes that register and `PC`, and nothing else. -/
theorem writesReg_setReg (s : State) (x : Reg) (v : Byte) : WritesReg s (s.advance.setReg x v) x v.toNat := by
  have hwritten : (s.advance.setReg x v).reg x = v := s.advance.setReg_reg_self x v
  have hothers (r : Reg) (hr : r ≠ x) : (s.advance.setReg x v).reg r = s.reg r :=
    (s.advance.setReg_reg x r v).trans (if_neg hr)
  exact ⟨congrArg BitVec.toNat hwritten, hothers, rfl, unchangedBut_registers rfl⟩

/-! ### The obligations -/

/-- Settles O31: LD writes `kk`. -/
theorem ldImmSetsTheRegister : Obligations.LdImmSetsTheRegister := by
  unfold Obligations.LdImmSetsTheRegister
  exact fun x kk => ⟨RoundTrip.ldImm x kk rfl, fun s => ⟨_, rfl, writesReg_setReg s x kk⟩⟩

/-- Settles O32: the byte written is a sum of bytes, whose number is the sum modulo 256. -/
theorem addImmWrapsWithoutFlag : Obligations.AddImmWrapsWithoutFlag := by
  unfold Obligations.AddImmWrapsWithoutFlag
  refine fun x kk => ⟨RoundTrip.addImm x kk rfl, fun s => ⟨_, rfl, ?_⟩⟩
  have hsum : (s.reg x + kk).toNat = ((s.reg x).toNat + kk.toNat) % 256 := BitVec.toNat_add (s.reg x) kk
  rw [← hsum]
  exact writesReg_setReg s x (s.reg x + kk)

/-- Settles O33: LD writes `V[y]` as it stood before. -/
theorem ldRegCopies : Obligations.LdRegCopies := by
  unfold Obligations.LdRegCopies
  exact fun x y => ⟨RoundTrip.ldReg x y rfl, fun s => ⟨_, rfl, writesReg_setReg s x (s.reg y)⟩⟩

end Sys2Proof.Proofs.Alu
end

/-! ## The index register (42_index_memory.md R120, R122)

Both instructions write `I` in the advanced state: what that changes and keeps is one lemma, `writesIndex_setIndex`, and an
obligation adds its decoding and the number of the word written. -/

section
namespace Sys2Proof.Proofs.IndexMemory

open Sys2Proof.Machine Sys2Proof.Safety
open Sys2Proof.Laws

/-! ### Frames -/

/-- A state that is `s` with another `PC` and index register keeps every other part of `s`. -/
theorem unchangedBut_index {s t : State} (h : t = { s with pc := t.pc, index := t.index }) :
    UnchangedBut [.pc, .index] s t := by
  refine unchangedBut_of_parts fun p => ?_
  rw [h]
  cases p with
  | pc | index => left; decide
  | regs | ram => exact .inr fun _ => rfl
  | stack | sp | delay | sound | keys | display | fault => exact .inr rfl

/-- An index write after the fetch's advance changes `I` and `PC`, and nothing else. -/
theorem writesIndex_setIndex (s : State) (v : Word) : WritesIndex s (s.advance.setIndex v) v.toNat :=
  ⟨rfl, rfl, unchangedBut_index rfl⟩

/-! ### LD F: its word and the glyph's address (R63, R122) -/

theorem encode_ldF (x : Reg) : encode (.ldF x) = BitVec.ofNat 16 (0xF029 + x.val * 0x100) :=
  congrArg (BitVec.ofNat 16) (Nat.add_right_comm 0xF000 (x.val * 0x100) 0x29)

/-- Five times a nibble is at most 75, so the word holds the product exactly. -/
theorem glyphAddr_toNat (v : Byte) : (glyphAddr v).toNat = 5 * (v.toNat % 16) := by
  have hnibble : (v.extractLsb' 0 4).toNat = v.toNat % 16 := by simp
  have hfits : 5 * (v.toNat % 16) < 2 ^ 16 := by omega
  rw [glyphAddr, hnibble]
  exact Nat.mod_eq_of_lt hfits

/-! ### The obligations -/

/-- Settles O37: LD I writes `nnn`, widened to a word. -/
theorem ldISetsTheIndex : Obligations.LdISetsTheIndex := by
  unfold Obligations.LdISetsTheIndex
  refine fun nnn => ⟨RoundTrip.ldI nnn rfl, fun s => ⟨_, rfl, ?_⟩⟩
  rw [← zextAddr_toNat nnn]
  exact writesIndex_setIndex s (zextAddr nnn)

/-- Settles O39: LD F writes the address of the glyph. -/
theorem ldFPointsAtTheGlyph : Obligations.LdFPointsAtTheGlyph := by
  unfold Obligations.LdFPointsAtTheGlyph
  refine fun x => ⟨encode_ldF x ▸ RoundTrip.ldF x rfl, fun s => ⟨_, rfl, ?_⟩⟩
  rw [← glyphAddr_toNat (s.reg x)]
  exact writesIndex_setIndex s (glyphAddr (s.reg x))

end Sys2Proof.Proofs.IndexMemory
end

/-! ## The display (43_display.md R140, R142)

A refused or faulting transaction keeps the display, and so does each of the host's transactions but reset; for a tick,
`step_cases` and `exec_cases` leave CLS and DRW alone as instructions that may change it. -/

section
namespace Sys2Proof.Proofs.Display

open Sys2Proof.Machine Sys2Proof.Safety
open Sys2Proof.Laws

/-! ### CLS: its frame (R140) -/

/-- A state that is `s` with another `PC` and display keeps every other part of `s`. -/
theorem unchangedBut_pcDisplay {s t : State} (h : t = { s with pc := t.pc, display := t.display }) :
    UnchangedBut [.pc, .display] s t := by
  refine unchangedBut_of_parts fun p => ?_
  rw [h]
  cases p with
  | pc | display => left; decide
  | regs | ram => exact .inr fun _ => rfl
  | index | stack | sp | delay | sound | keys | fault => exact .inr rfl

/-! ### The transactions that keep the display (R142) -/

/-- A transaction whose own course keeps the display keeps it when refused, too. -/
theorem unlessFaulted_display {s : State} {r : State × Response} (h : r.1.display = s.display) :
    (s.unlessFaulted r).1.display = s.display := by
  rcases HostInputs.unlessFaulted_cases s r with hr | hr <;> rw [hr]
  exact h

theorem load_after_display (data : List Byte) (s : State) : ((Txn.load data).after s).display = s.display := by
  refine unlessFaulted_display ?_
  split
  · rfl
  · next hlen =>
    have hshort : data.length ≤ 3584 := Nat.le_of_not_lt hlen
    obtain ⟨hpoke, -⟩ := State.pokeAll_spec data s 0x200 (by omega)
    rw [hpoke]; rfl

theorem tickTimers_after_display (s : State) : (Txn.tickTimers.after s).display = s.display :=
  unlessFaulted_display rfl

theorem keypress_after_display (index : Nat) (pressed : Bool) (s : State) :
    ((Txn.keypress index pressed).after s).display = s.display := by
  refine unlessFaulted_display ?_
  split <;> rfl

/-- Everything a tick can do to the display: nothing, unless it executes CLS or DRW. -/
theorem tick_after_display_cases (s : State) :
    (Txn.tick.after s).display = s.display ∨ Executes s .cls ∨ ∃ x y n, Executes s (.drw x y n) := by
  rcases tick_after_cases s with hsame | hstep
  · exact .inl (congrArg State.display hsame)
  obtain ⟨-, ⟨f, hfault⟩ | ⟨i, hexecutes, hexec⟩⟩ := step_cases hstep
  · exact .inl (by rw [hfault, State.takeFault_display])
  obtain ⟨f, hfault, -⟩ | hchanges := exec_cases hexec
  · exact .inl (by rw [hfault, State.takeFault_display])
  obtain hkept | rfl | ⟨x, y, n, rfl⟩ := hchanges.display
  · exact .inl hkept
  · exact .inr (.inl hexecutes)
  · exact .inr (.inr ⟨x, y, n, hexecutes⟩)

/-! ### The obligations -/

/-- Settles O19: each transaction but reset and tick keeps the display, and a tick does unless it executes CLS or DRW. -/
theorem displayChangesOnlyByDrawing : Obligations.DisplayChangesOnlyByDrawing := by
  unfold Obligations.DisplayChangesOnlyByDrawing
  intro t s hchanged
  cases t with
  | reset => exact .inl rfl
  | load data => exact absurd (load_after_display data s) hchanged
  | tick => exact .inr ⟨rfl, (tick_after_display_cases s).resolve_left hchanged⟩
  | tickTimers => exact absurd (tickTimers_after_display s) hchanged
  | keypress index pressed => exact absurd (keypress_after_display index pressed s) hchanged
  | getDisplay => exact absurd rfl hchanged

/-- Settles O47: CLS answers the advanced state with its display cleared. -/
theorem clsClearsTheDisplay : Obligations.ClsClearsTheDisplay := by
  unfold Obligations.ClsClearsTheDisplay
  refine ⟨RoundTrip.cls rfl, fun s => ⟨s.advance.clearDisplay, rfl, fun p hp => ?_, rfl, unchangedBut_pcDisplay rfl⟩⟩
  rw [State.clearDisplay_display, Vector.getElem?_replicate, if_pos hp]

end Sys2Proof.Proofs.Display
end

/-! ## Exceptions and the host's transactions (60_exceptions.md R152 to R156, R162, R163)

An instruction ends in `commit` or in its state outright, so it answers a next state; `unlessFaulted` is one equation with
a fault latched and one without. -/

section
namespace Sys2Proof.Proofs.Exceptions

open Sys2Proof.Machine Sys2Proof.Safety

/-! ### An instruction's answer (R152, R153) -/

/-- Every instruction ends in `commit`: of its state, or of the fault it raised. -/
theorem exec_eq_commit (i : Instr) (s : State) : ∃ r, exec i s = s.commit r := by
  cases i with
  | ret | drw | ldStore | ldLoad => exact ⟨_, rfl⟩
  | call nnn =>
    simp only [exec, execCall]
    cases s.advance.push s.advance.pc with
    | ok t => exact ⟨_, rfl⟩
    | error f => exact ⟨_, rfl⟩
  | addI x =>
    simp only [exec, execAddI]
    split
    · exact ⟨_, rfl⟩
    · exact ⟨_, rfl⟩
  | _ => exact ⟨.ok _, rfl⟩

/-! ### The refusal of a transaction (R154) -/

theorem unlessFaulted_of_faulted {s : State} {f : Fault} (h : s.fault = some f) (r : State × Response) :
    s.unlessFaulted r = (s, .faulted f) := by
  simp only [State.unlessFaulted, h]

theorem unlessFaulted_of_unlatched {s : State} (h : s.fault = none) (r : State × Response) : s.unlessFaulted r = r := by
  simp only [State.unlessFaulted, h]

/-! ### What `keypress` answers with no fault latched (R156, R162) -/

theorem keypress_run_of_inside {s : State} (h0 : s.fault = none) {k : Nat} (hk : k < 16) (b : Bool) :
    (Txn.keypress k b).run s = ({ s with keys := s.keys.set k b hk }, .ok) :=
  (unlessFaulted_of_unlatched h0 _).trans (dif_pos hk)

theorem keypress_run_of_outside {s : State} (h0 : s.fault = none) {k : Nat} (hk : 16 ≤ k) (b : Bool) :
    (Txn.keypress k b).run s = (s.takeFault (.keyIndexOutOfRange k), .faulted (.keyIndexOutOfRange k)) :=
  (unlessFaulted_of_unlatched h0 _).trans (dif_neg (Nat.not_lt.mpr hk))

/-- A state that is `s` with other keys keeps every other part of `s`. -/
theorem unchangedBut_keys {s t : State} (h : t = { s with keys := t.keys }) : UnchangedBut [.keys] s t := by
  refine unchangedBut_of_parts fun p => ?_
  rw [h]
  cases p with
  | keys => exact .inl (List.mem_singleton.mpr rfl)
  | regs | ram => exact .inr fun _ => rfl
  | index | pc | stack | sp | delay | sound | display | fault => exact .inr rfl

/-! ### A pixel of the array (R163) -/

/-- Inside the array, reading the display answers the pixel. -/
theorem display_getElem?_eq_pixel (s : State) {p : Nat} (hp : p < 2048) : s.display[p]? = some (s.pixel p) := by
  rw [State.pixel, Vector.getElem?_eq_getElem hp, Option.getD_some]

/-! ### The obligations -/

/-- Settles O4: `commit` answers a next state whatever it is given. -/
theorem everyInstructionAnswersANextState : Obligations.EveryInstructionAnswersANextState := by
  unfold Obligations.EveryInstructionAnswersANextState
  intro i s
  obtain ⟨r, hr⟩ := exec_eq_commit i s
  rw [hr]
  exact s.commit_next r

/-- Settles O55: refused with a fault latched; otherwise the index decides between the fault and the one key written. -/
theorem keypressSetsOneKey : Obligations.KeypressSetsOneKey := by
  unfold Obligations.KeypressSetsOneKey
  refine fun k b s => ⟨fun f hf => unlessFaulted_of_faulted hf _, fun h0 hk => keypress_run_of_outside h0 hk b,
    fun h0 hk => ?_⟩
  have hset : (s.keys.set k b)[k]? = some b := Vector.getElem?_set_self hk
  have hothers (j : Nat) (hj : j ≠ k) : (s.keys.set k b)[j]? = s.keys[j]? := Vector.getElem?_set_ne hk hj.symm
  exact ⟨_, keypress_run_of_inside h0 hk b, hset, hothers, unchangedBut_keys rfl⟩

/-- Settles O57: the response holds the display array itself, and the transaction answers the state it began in. -/
theorem getDisplayReadsThePixels : Obligations.GetDisplayReadsThePixels := by
  unfold Obligations.GetDisplayReadsThePixels
  exact fun s => ⟨s.display, rfl, fun _ => display_getElem?_eq_pixel s⟩

end Sys2Proof.Proofs.Exceptions
end

/-! ## The round trip and the opcode table (30_encoding.md R63, R65; opcode_table.json)

A row's mask and pattern say the fields that select its instruction, so a word of the row is laid out again from its fields
as the word of one of the row's instructions, and the round trip decodes it; every encoded word satisfies its own row. -/

section
namespace Sys2Proof.Proofs.OpcodeTable

open Sys2Proof.Laws
open Sys2Proof.Proofs.Encoding

/-- Settles O9: the round trip of each constructor. -/
theorem decodeOfEncode : Obligations.DecodeOfEncode := by
  unfold Obligations.DecodeOfEncode
  intro i
  cases i with
  | nop => exact RoundTrip.nop
  | cls => exact RoundTrip.cls
  | ret => exact RoundTrip.ret
  | jp nnn => exact RoundTrip.jp nnn
  | call nnn => exact RoundTrip.call nnn
  | seImm x kk => exact RoundTrip.seImm x kk
  | sneImm x kk => exact RoundTrip.sneImm x kk
  | seReg x y => exact RoundTrip.seReg x y
  | ldImm x kk => exact RoundTrip.ldImm x kk
  | addImm x kk => exact RoundTrip.addImm x kk
  | ldReg x y => exact RoundTrip.ldReg x y
  | or x y => exact RoundTrip.or x y
  | and x y => exact RoundTrip.and x y
  | xor x y => exact RoundTrip.xor x y
  | addReg x y => exact RoundTrip.addReg x y
  | sub x y => exact RoundTrip.sub x y
  | ldI nnn => exact RoundTrip.ldI nnn
  | drw x y n => exact RoundTrip.drw x y n
  | addI x => exact RoundTrip.addI x
  | ldF x => exact RoundTrip.ldF x
  | ldStore x => exact RoundTrip.ldStore x
  | ldLoad x => exact RoundTrip.ldLoad x

/-! ### The word of an instruction satisfies its row -/

theorem wordNNN_and_F000 (op : Nat) (nnn : Addr) (hop : op < 16) : (wordNNN op nnn &&& 0xF000).toNat = op * 0x1000 := by
  rw [toNat_and_F000, ← d1_toNat, (fields_wordNNN op nnn hop).1]

theorem wordXKK_and_F000 (op : Nat) (x : Reg) (kk : Byte) (hop : op < 16) :
    (wordXKK op x kk &&& 0xF000).toNat = op * 0x1000 := by
  rw [toNat_and_F000, ← d1_toNat, (fields_wordXKK op x kk hop).1]

theorem wordXYN_and_F000 (op : Nat) (x y : Reg) (d : Nat) (hop : op < 16) (hd : d < 16) :
    (wordXYN op x y d &&& 0xF000).toNat = op * 0x1000 := by
  rw [toNat_and_F000, ← d1_toNat, (fields_wordXYN op x y d hop hd).1]

theorem wordXYN_and_F00F (op : Nat) (x y : Reg) (d : Nat) (hop : op < 16) (hd : d < 16) :
    (wordXYN op x y d &&& 0xF00F).toNat = op * 0x1000 + d := by
  obtain ⟨hd1, -, -, hd4⟩ := fields_wordXYN op x y d hop hd
  rw [toNat_and_F00F, ← d1_toNat, ← d4_toNat, hd1, hd4]

theorem wordX_and_F0FF (op : Nat) (x : Reg) (low : Nat) (hop : op < 16) (hlow : low < 0x100) :
    (wordX op x low &&& 0xF0FF).toNat = op * 0x1000 + low := by
  obtain ⟨hd1, -, hkk⟩ := fields_wordX op x low hop hlow
  rw [toNat_and_F0FF, ← d1_toNat, ← fieldKK_toNat, hd1, hkk, BitVec.toNat_ofNat, Nat.mod_eq_of_lt hlow]

/-- Every well-formed instruction's word belongs to the instruction's row. -/
theorem rowOf_holds_encode {i : Instr} (hwf : i.wellFormed = true) : (rowOf i).holds (encode i) = true := by
  rw [Row.holds_iff]
  cases i with
  | nop | cls | ret => rfl
  | jp nnn => exact wordNNN_and_F000 0x1 nnn (by decide)
  | call nnn => exact wordNNN_and_F000 0x2 nnn (by decide)
  | seImm x kk => exact wordXKK_and_F000 0x3 x kk (by decide)
  | sneImm x kk => exact wordXKK_and_F000 0x4 x kk (by decide)
  | seReg x y => exact wordXYN_and_F00F 0x5 x y 0 (by decide) (by decide)
  | ldImm x kk => exact wordXKK_and_F000 0x6 x kk (by decide)
  | addImm x kk => exact wordXKK_and_F000 0x7 x kk (by decide)
  | ldReg x y => exact wordXYN_and_F00F 0x8 x y 0 (by decide) (by decide)
  | or x y => exact wordXYN_and_F00F 0x8 x y 1 (by decide) (by decide)
  | and x y => exact wordXYN_and_F00F 0x8 x y 2 (by decide) (by decide)
  | xor x y => exact wordXYN_and_F00F 0x8 x y 3 (by decide) (by decide)
  | addReg x y => exact wordXYN_and_F00F 0x8 x y 4 (by decide) (by decide)
  | sub x y => exact wordXYN_and_F00F 0x8 x y 5 (by decide) (by decide)
  | ldI nnn => exact wordNNN_and_F000 0xA nnn (by decide)
  | drw x y n => exact wordXYN_and_F000 0xD x y n (by decide) (Nat.lt_succ_of_le (of_decide_eq_true hwf))
  | addI x => exact wordX_and_F0FF 0xF x 0x1E (by decide) (by decide)
  | ldF x => exact wordX_and_F0FF 0xF x 0x29 (by decide) (by decide)
  | ldStore x => exact wordX_and_F0FF 0xF x 0x55 (by decide) (by decide)
  | ldLoad x => exact wordX_and_F0FF 0xF x 0x65 (by decide) (by decide)

/-! ### A word of a row is the word of an instruction of the row -/

theorem d1_of_and_F000 {w : Word} {op : Nat} (h : (w &&& 0xF000).toNat = op * 0x1000) : (d1 w).toNat = op := by
  rw [toNat_and_F000] at h
  rw [d1_toNat]; omega

theorem word_of_and_F00F {w : Word} {op d : Nat} (hd : d < 16) (h : (w &&& 0xF00F).toNat = op * 0x1000 + d) :
    wordXYN op (fieldX w) (fieldY w) d = w := by
  rw [toNat_and_F00F] at h
  exact wordXYN_fields (by rw [d1_toNat]; omega) (by rw [d4_toNat]; omega)

theorem word_of_and_F0FF {w : Word} {op low : Nat} (hlow : low < 0x100)
    (h : (w &&& 0xF0FF).toNat = op * 0x1000 + low) : wordX op (fieldX w) low = w := by
  rw [toNat_and_F0FF] at h
  exact wordX_fields (by rw [d1_toNat]; omega) (by rw [fieldKK_toNat]; omega)

/-- A word of a fixed row is the row's pattern. -/
theorem eq_of_and_FFFF {w p : Word} (h : (w &&& 0xFFFF).toNat = p.toNat) : p = w := by
  have hall : w &&& 0xFFFF = w := BitVec.and_allOnes
  rw [hall] at h
  exact (BitVec.eq_of_toNat_eq h).symm

/-- A word of an instruction's row is the word of an instruction of that row, with the word's own fields. -/
theorem exists_isWordOf_of_holds {i : Instr} {w : Word} (h : (rowOf i).holds w = true) :
    ∃ j, IsWordOf w j ∧ rowOf j = rowOf i := by
  rw [Row.holds_iff] at h
  cases i with
  | nop => exact ⟨.nop, ⟨rfl, eq_of_and_FFFF h⟩, rfl⟩
  | cls => exact ⟨.cls, ⟨rfl, eq_of_and_FFFF h⟩, rfl⟩
  | ret => exact ⟨.ret, ⟨rfl, eq_of_and_FFFF h⟩, rfl⟩
  | jp => exact ⟨.jp (fieldNNN w), ⟨rfl, wordNNN_fields (d1_of_and_F000 h)⟩, rfl⟩
  | call => exact ⟨.call (fieldNNN w), ⟨rfl, wordNNN_fields (d1_of_and_F000 h)⟩, rfl⟩
  | seImm => exact ⟨.seImm (fieldX w) (fieldKK w), ⟨rfl, wordXKK_fields (d1_of_and_F000 h)⟩, rfl⟩
  | sneImm => exact ⟨.sneImm (fieldX w) (fieldKK w), ⟨rfl, wordXKK_fields (d1_of_and_F000 h)⟩, rfl⟩
  | seReg => exact ⟨.seReg (fieldX w) (fieldY w), ⟨rfl, word_of_and_F00F (by decide) h⟩, rfl⟩
  | ldImm => exact ⟨.ldImm (fieldX w) (fieldKK w), ⟨rfl, wordXKK_fields (d1_of_and_F000 h)⟩, rfl⟩
  | addImm => exact ⟨.addImm (fieldX w) (fieldKK w), ⟨rfl, wordXKK_fields (d1_of_and_F000 h)⟩, rfl⟩
  | ldReg => exact ⟨.ldReg (fieldX w) (fieldY w), ⟨rfl, word_of_and_F00F (by decide) h⟩, rfl⟩
  | or => exact ⟨.or (fieldX w) (fieldY w), ⟨rfl, word_of_and_F00F (by decide) h⟩, rfl⟩
  | and => exact ⟨.and (fieldX w) (fieldY w), ⟨rfl, word_of_and_F00F (by decide) h⟩, rfl⟩
  | xor => exact ⟨.xor (fieldX w) (fieldY w), ⟨rfl, word_of_and_F00F (by decide) h⟩, rfl⟩
  | addReg => exact ⟨.addReg (fieldX w) (fieldY w), ⟨rfl, word_of_and_F00F (by decide) h⟩, rfl⟩
  | sub => exact ⟨.sub (fieldX w) (fieldY w), ⟨rfl, word_of_and_F00F (by decide) h⟩, rfl⟩
  | ldI => exact ⟨.ldI (fieldNNN w), ⟨rfl, wordNNN_fields (d1_of_and_F000 h)⟩, rfl⟩
  | drw =>
    have hrows : rowCountOk (d4 w).toNat = true := decide_eq_true (Nat.le_of_lt_succ (d4 w).isLt)
    exact ⟨.drw (fieldX w) (fieldY w) (d4 w).toNat, ⟨hrows, wordXYN_fields (d1_of_and_F000 h) rfl⟩, rfl⟩
  | addI => exact ⟨.addI (fieldX w), ⟨rfl, word_of_and_F0FF (by decide) h⟩, rfl⟩
  | ldF => exact ⟨.ldF (fieldX w), ⟨rfl, word_of_and_F0FF (by decide) h⟩, rfl⟩
  | ldStore => exact ⟨.ldStore (fieldX w), ⟨rfl, word_of_and_F0FF (by decide) h⟩, rfl⟩
  | ldLoad => exact ⟨.ldLoad (fieldX w), ⟨rfl, word_of_and_F0FF (by decide) h⟩, rfl⟩

/-- The word of an instruction decodes to it, by the round trip. -/
theorem decode_of_isWordOf {i : Instr} {w : Word} (h : IsWordOf w i) : decode w = some i := by
  obtain ⟨hwf, rfl⟩ := h
  exact decodeOfEncode i hwf

/-- A word belongs to an instruction's row exactly when it decodes to an instruction of that row. -/
theorem rowOf_holds_iff (i : Instr) (w : Word) :
    (rowOf i).holds w = true ↔ ∃ j, decode w = some j ∧ rowOf j = rowOf i := by
  constructor
  · intro h
    obtain ⟨j, hword, hrow⟩ := exists_isWordOf_of_holds h
    exact ⟨j, decode_of_isWordOf hword, hrow⟩
  · rintro ⟨j, hdecode, hrow⟩
    obtain ⟨hwf, rfl⟩ := isWordOf_of_decode hdecode
    rw [← hrow]
    exact rowOf_holds_encode hwf

/-! ### The table -/

theorem exists_rowOf_of_mem {r : Row} (h : r ∈ opcodeTable) : ∃ i, rowOf i = r := by
  obtain ⟨i, -, hi⟩ := List.mem_map.mp h
  exact ⟨i, hi⟩

/-- Settles O11: two rows that share a word are both the row of the instruction it decodes to. -/
theorem decodeAgreesWithTheOpcodeTable : Obligations.DecodeAgreesWithTheOpcodeTable := by
  unfold Obligations.DecodeAgreesWithTheOpcodeTable
  refine ⟨rfl, fun w r hr q hq hrw hqw => ?_, fun w r hr => ?_⟩
  · obtain ⟨i, rfl⟩ := exists_rowOf_of_mem hr
    obtain ⟨k, rfl⟩ := exists_rowOf_of_mem hq
    obtain ⟨j, hj, hji⟩ := (rowOf_holds_iff i w).mp hrw
    obtain ⟨j', hj', hjk⟩ := (rowOf_holds_iff k w).mp hqw
    obtain rfl : j = j' := Option.some.inj (hj.symm.trans hj')
    exact hji.symm.trans hjk
  · obtain ⟨i, rfl⟩ := exists_rowOf_of_mem hr
    exact rowOf_holds_iff i w

/-- Settles O8: eleven words are evaluated, and so are four that are in none of the groups' rows. -/
theorem decodeOfSampleWords : Obligations.DecodeOfSampleWords := by
  unfold Obligations.DecodeOfSampleWords
  decide

end Sys2Proof.Proofs.OpcodeTable
end

/-! ## RAM access and `load` (20_memory.md R44, R45; 60_exceptions.md R156; 70_reset_and_hazards.md R181, R182)

`load` has one answer per length: its bytes placed from 0x200, or the fault. What the placing changes is `pokeAll_spec`. -/

section
namespace Sys2Proof.Proofs.Load

open Sys2Proof.Machine Sys2Proof.Safety
open Sys2Proof.Proofs.Exceptions

/-! ### Frames -/

/-- A frame holds of any longer list of parts. -/
theorem unchangedBut_mono {s t : State} {changed more : List Part} (hsub : changed ⊆ more)
    (h : UnchangedBut changed s t) : UnchangedBut more s t :=
  fun p hp => h p fun hmem => hp (hsub hmem)

/-- A state that is `s` with another RAM and another `PC` keeps every other part of `s`. -/
theorem unchangedBut_ramPc {s t : State} (h : t = { s with mem := t.mem, pc := t.pc }) :
    UnchangedBut [.ram, .pc] s t := by
  refine unchangedBut_of_parts fun p => ?_
  rw [h]
  cases p with
  | ram | pc => left; decide
  | regs => exact .inr fun _ => rfl
  | index | stack | sp | delay | sound | keys | display | fault => exact .inr rfl

theorem unchangedBut_ram {s t : State} (h : t = { s with mem := t.mem }) : UnchangedBut [.ram] s t :=
  ControlFlow.unchangedBut_of_append (q := .pc) (unchangedBut_ramPc (by rw [h])) (by rw [h]; rfl)

/-! ### One byte (R44, R45) -/

/-- A write to RAM outside the font table sets its one byte. -/
theorem memWrite_of_storable (s : State) {a : Nat} (v : Byte) (hlo : 80 ≤ a) (hhi : a < 4096) :
    s.memWrite a v = .ok { s with mem := s.mem.write a v } := by
  rw [State.memWrite_eq, if_neg (Nat.not_le.mpr hhi), if_neg (Nat.not_lt.mpr hlo)]

/-- Settles O51: `memRead_eq` and `memWrite_eq` in the order of their checks. -/
theorem ramAccessIsChecked : Obligations.RamAccessIsChecked := by
  unfold Obligations.RamAccessIsChecked
  intro s a v
  rw [State.memRead_eq]
  refine ⟨fun hout => ⟨if_neg (Nat.not_lt.mpr hout), ?_⟩, fun hin => if_pos hin, fun hfont => ?_, fun hlo hhi => ?_⟩
  · rw [State.memWrite_eq, if_pos hout]
  · rw [State.memWrite_eq, if_neg (by omega), if_pos hfont]
  · have hwritten := (s.byte_write a a v).trans (if_pos rfl)
    have hothers (b : Nat) (hb : b ≠ a) := (s.byte_write a b v).trans (if_neg hb)
    exact ⟨_, memWrite_of_storable s v hlo hhi, hwritten, hothers, unchangedBut_ram rfl⟩

/-! ### What `load` answers (R156, R181) -/

theorem loadWith_of_fits {s : State} (h0 : s.fault = none) {data : List Byte} (hlen : data.length ≤ 3584) (b : Bool) :
    loadWith b data s = (if b then (s.pokeAll 0x200 data).setPc 0x200 else s.pokeAll 0x200 data, .ok) := by
  unfold loadWith
  rw [unlessFaulted_of_unlatched h0, if_neg (Nat.not_lt.mpr hlen)]
  cases b <;> rfl

theorem loadWith_of_tooLong {s : State} (h0 : s.fault = none) {data : List Byte} (hlen : 3584 < data.length) (b : Bool) :
    loadWith b data s = (s.takeFault (.outOfBounds .ram 0x1000), .faulted (.outOfBounds .ram 0x1000)) := by
  unfold loadWith
  rw [unlessFaulted_of_unlatched h0, if_pos hlen]
  rfl

/-- Everything the `load` transaction can do: it is refused with the latched fault, it raises the fault of a length that
does not fit, or it places its bytes from 0x200. -/
theorem load_run_cases (data : List Byte) (s : State) :
    (∃ f, s.fault = some f ∧ (Txn.load data).run s = (s, .faulted f)) ∨
    (∃ f, (Txn.load data).run s = (s.takeFault f, .faulted f)) ∨
    (data.length ≤ 3584 ∧ (Txn.load data).run s = (s.pokeAll 0x200 data, .ok)) := by
  cases h0 : s.fault with
  | some f => exact .inl ⟨f, rfl, unlessFaulted_of_faulted h0 _⟩
  | none =>
    rcases Nat.lt_or_ge 3584 data.length with hlong | hfits
    · exact .inr (.inl ⟨_, loadWith_of_tooLong h0 hlong _⟩)
    · exact .inr (.inr ⟨hfits, loadWith_of_fits h0 hfits false⟩)

/-- Where the bytes fit, placing them from 0x200 changes RAM alone. -/
theorem pokeAll_frame {data : List Byte} (hlen : data.length ≤ 3584) (s : State) :
    s.pokeAll 0x200 data = { s with mem := (s.pokeAll 0x200 data).mem } :=
  (State.pokeAll_spec data s 0x200 (by omega)).1

theorem pokeAll_pc {data : List Byte} (hlen : data.length ≤ 3584) (s : State) : (s.pokeAll 0x200 data).pc = s.pc := by
  rw [pokeAll_frame hlen]

/-- Setting `PC` to the value it has changes nothing. -/
theorem setPc_of_eq {s : State} {v : Word} (h : s.pc = v) : s.setPc v = s := by
  rw [← h]; rfl

/-! ### The obligations of `load` -/

/-- Settles O52: `pokeAll_spec` gives the bytes placed and the frame; the other value of the parameter only adds the
`setPc`. -/
theorem loadCopiesTheProgram : Obligations.LoadCopiesTheProgram := by
  unfold Obligations.LoadCopiesTheProgram
  intro b data s h0 hlen
  obtain ⟨hframe, hplaced, hothers, -⟩ := State.pokeAll_spec data s 0x200 (by omega)
  refine ⟨_, loadWith_of_fits h0 hlen b, ?_⟩
  cases b with
  | false => exact ⟨hplaced, hothers, pokeAll_pc hlen s, unchangedBut_ramPc (by rw [hframe]; rfl)⟩
  | true => exact ⟨hplaced, hothers, rfl, unchangedBut_ramPc (by rw [hframe]; rfl)⟩

/-- Settles O53: neither a refusal nor the fault nor the placing moves `PC`, which after reset is 0x200 already. -/
theorem loadLeavesPc : Obligations.LoadLeavesPc := by
  unfold Obligations.LoadLeavesPc
  refine ⟨fun data s => ?_, fun b data => ?_⟩
  · unfold Txn.after
    obtain ⟨f, -, h⟩ | ⟨f, h⟩ | ⟨hlen, h⟩ := load_run_cases data s
    · rw [h]
    · rw [h, State.takeFault_pc]
    · rw [h, pokeAll_pc hlen]
  · change loadWith b data State.reset = loadWith false data State.reset
    rcases Nat.lt_or_ge 3584 data.length with hlong | hfits
    · rw [loadWith_of_tooLong rfl hlong, loadWith_of_tooLong rfl hlong]
    · have hpc : (State.reset.pokeAll 0x200 data).pc = 0x200 := pokeAll_pc hfits State.reset
      rw [loadWith_of_fits rfl hfits, loadWith_of_fits rfl hfits, setPc_of_eq hpc, ite_self, ite_self]

/-- Settles O54: the length is checked before any byte is placed. -/
theorem loadTooLongFaults : Obligations.LoadTooLongFaults := by
  unfold Obligations.LoadTooLongFaults
  exact fun data s h0 hlen => loadWith_of_tooLong h0 hlen loadSetsPc

end Sys2Proof.Proofs.Load
end

/-! ## The invariant (10_state.md R23, R25; 20_memory.md R43)

`Inv` speaks of RAM, `PC` and the stack alone, so whatever leaves these three keeps it. For an instruction, `Changes` says
how it may touch each of them. -/

section
namespace Sys2Proof.Proofs.Invariant

open Sys2Proof.Machine Sys2Proof.Safety

/-- Settles O13: after reset RAM lists no cell, `PC` is 0x200 and every slot is 0. -/
theorem invariantHoldsAtReset : Obligations.InvariantHoldsAtReset := by
  unfold Obligations.InvariantHoldsAtReset
  have hfont (a : Nat) (ha : a < 80) : State.reset.byte a = fontByte a := by simp [resetByte, ha]
  have hslots (j : Nat) (_ : j < 16) : (State.reset.slot j).toNat ≤ 0x1000 := by simp
  exact ⟨Memory.reset_wf, hfont, by decide, hslots⟩

/-! ### What keeps the invariant -/

theorem inv_of_same {s t : State} (h : Inv s) (hmem : t.mem = s.mem) (hpc : t.pc = s.pc) (hstack : t.stack = s.stack) :
    Inv t := by
  have hbyte (a : Nat) : t.byte a = s.byte a := by simp only [State.byte, hmem]
  have hslot (j : Nat) : t.slot j = s.slot j := by simp only [State.slot, hstack]
  exact ⟨hmem ▸ h.ramForm, fun a ha => (hbyte a).trans (h.fontIntact a ha), hpc ▸ h.pcBound,
    fun j hj => by rw [hslot j]; exact h.slotBound j hj⟩

/-- The entry into a fault keeps it. -/
theorem inv_takeFault {s : State} (h : Inv s) (f : Fault) : Inv (s.takeFault f) := inv_of_same h rfl rfl rfl

/-- Bytes placed from 0x200 stay above the font table. -/
theorem inv_pokeAll {s : State} (h : Inv s) {data : List Byte} (hlen : data.length ≤ 3584) :
    Inv (s.pokeAll 0x200 data) := by
  obtain ⟨hframe, -, hothers, hwf⟩ := State.pokeAll_spec data s 0x200 (by omega)
  have hslot (j : Nat) : (s.pokeAll 0x200 data).slot j = s.slot j := by rw [hframe]; rfl
  refine ⟨hwf h.ramForm, fun a ha => ?_, ?_, fun j hj => ?_⟩
  · rw [hothers a (by omega)]; exact h.fontIntact a ha
  · rw [Load.pokeAll_pc hlen]; exact h.pcBound
  · rw [hslot j]; exact h.slotBound j hj

section Changes

variable {i : Instr} {s t : State}

theorem ramForm_of_changes (h : Inv s) (hc : Changes i s t) : t.mem.wf := by
  obtain hmem | ⟨x, -, -, -, hwf⟩ := hc.ram
  · exact hmem ▸ h.ramForm
  · exact hwf h.ramForm

/-- `Fx55` stores only at 80 and above (decision D8). -/
theorem fontIntact_of_changes (h : Inv s) (hc : Changes i s t) {a : Nat} (ha : a < 80) : t.byte a = fontByte a := by
  rw [← h.fontIntact a ha]
  obtain hmem | ⟨x, -, hstorable, hothers, -⟩ := hc.ram
  · simp only [State.byte, hmem]
  · refine hothers a fun j hj => ?_
    obtain ⟨hlo, -⟩ := hstorable j (Nat.zero_le j) (by omega)
    omega

/-- An instruction fetched inside RAM leaves `PC` at the next instruction, past a skipped one, at an address `nnn` or at a
slot's value (decision D3). -/
theorem pcBound_of_changes (h : Inv s) (hin : s.pc.toNat + 2 ≤ 4096) (hc : Changes i s t) : t.pc.toNat ≤ 0x1002 := by
  obtain ⟨-, -, hpc | hpc | hpc⟩ | ⟨-, -, hpos, hpc⟩ | ⟨nnn, -, hpc, -⟩ := hc.control
  · rw [hpc]; bv_omega
  · rw [hpc]; bv_omega
  · omega
  · have hbound := h.slotBound (s.sp.val - 1) (by omega)
    rw [hpc]; omega
  · omega

/-- The only value pushed is the address after a call fetched inside RAM. -/
theorem slotBound_of_changes (h : Inv s) (hin : s.pc.toNat + 2 ≤ 4096) (hc : Changes i s t) {j : Nat} (hj : j < 16) :
    (t.slot j).toNat ≤ 0x1000 := by
  have hold := h.slotBound j hj
  obtain ⟨hstack, -, -⟩ | ⟨-, hstack, -, -⟩ | ⟨nnn, -, -, hslots⟩ := hc.control
  · simpa only [State.slot, hstack] using hold
  · simpa only [State.slot, hstack] using hold
  · obtain hslot | hslot := hslots j
    · rw [hslot]; exact hold
    · rw [hslot]; bv_omega

theorem inv_of_changes (h : Inv s) (hin : s.pc.toNat + 2 ≤ 4096) (hc : Changes i s t) : Inv t :=
  ⟨ramForm_of_changes h hc, fun _ => fontIntact_of_changes h hc, pcBound_of_changes h hin hc,
    fun _ => slotBound_of_changes h hin hc⟩

end Changes

/-! ### A step -/

/-- Settles O14: a step is the entry into a fault, or the changes of an instruction fetched inside RAM. -/
theorem everyStepKeepsTheInvariant : Obligations.EveryStepKeepsTheInvariant := by
  unfold Obligations.EveryStepKeepsTheInvariant
  intro s t h hstep
  obtain ⟨-, ⟨f, rfl⟩ | ⟨i, ⟨-, w, hfetch, -⟩, hexec⟩⟩ := step_cases hstep
  · exact inv_takeFault h f
  · obtain ⟨f, rfl, -⟩ | hchanges := exec_cases hexec
    · exact inv_takeFault h f
    · exact inv_of_changes h (State.fetch_inside hfetch) hchanges

/-! ### The transactions -/

/-- Keeping the invariant is unaffected by the refusal of R154. -/
theorem inv_unlessFaulted {s : State} (h : Inv s) {r : State × Response} (hr : Inv r.1) : Inv (s.unlessFaulted r).1 := by
  rcases HostInputs.unlessFaulted_cases s r with hrun | hrun <;> rw [hrun]
  · exact h
  · exact hr

theorem inv_load {s : State} (h : Inv s) (data : List Byte) : Inv ((Txn.load data).after s) := by
  unfold Txn.after
  obtain ⟨f, -, hrun⟩ | ⟨f, hrun⟩ | ⟨hlen, hrun⟩ := Load.load_run_cases data s <;> rw [hrun]
  · exact h
  · exact inv_takeFault h f
  · exact inv_pokeAll h hlen

theorem inv_tick {s : State} (h : Inv s) : Inv (Txn.tick.after s) := by
  rcases tick_after_cases s with hsame | hstep
  · rw [hsame]; exact h
  · exact everyStepKeepsTheInvariant s _ h hstep

theorem inv_keypress {s : State} (h : Inv s) (index : Nat) (pressed : Bool) :
    Inv ((Txn.keypress index pressed).after s) := by
  refine inv_unlessFaulted h ?_
  split
  · exact inv_of_same h rfl rfl rfl
  · exact inv_takeFault h _

/-- Settles O15: reset answers the reset state, a tick is a step, `load` places bytes above the font table, and the others
touch neither RAM, `PC` nor the stack. -/
theorem everyTransactionKeepsTheInvariant : Obligations.EveryTransactionKeepsTheInvariant := by
  unfold Obligations.EveryTransactionKeepsTheInvariant
  intro s t h
  cases t with
  | reset => exact invariantHoldsAtReset
  | load data => exact inv_load h data
  | tick => exact inv_tick h
  | tickTimers => exact inv_unlessFaulted h (inv_of_same h rfl rfl rfl)
  | keypress index pressed => exact inv_keypress h index pressed
  | getDisplay => exact h

end Sys2Proof.Proofs.Invariant
end

/-! ## Fault entry and the timers' transaction (60_exceptions.md R151 to R154, R159, R160)

No instruction writes the latch, so a step that ends with one set is the entry into its fault; every other transaction that
responds with a fault was refused or raised it with `State.raise`. -/

section
namespace Sys2Proof.Proofs.FaultEntry

open Sys2Proof.Machine Sys2Proof.Safety
open Sys2Proof.Proofs.Exceptions

/-! ### A step and the latch -/

/-- What an instruction leaves latched it raised itself, and its state is the entry into that fault. -/
theorem exec_fault {i : Instr} {s t : State} {f : Fault} (h0 : s.fault = none) (h : exec i s = .next t)
    (hf : t.fault = some f) : t = s.takeFault f ∧ mayRaise i f := by
  obtain ⟨g, rfl, hraise⟩ | hchanges := exec_cases h
  · obtain rfl : g = f := Option.some.inj hf
    exact ⟨rfl, hraise⟩
  · obtain ⟨-, -, -, hkept⟩ := hchanges.host
    rw [hkept, h0] at hf
    cases hf

theorem step_fault {s t : State} {f : Fault} (h : step s = .next t) (hf : t.fault = some f) : t = s.takeFault f := by
  obtain ⟨h0, ⟨g, rfl⟩ | ⟨i, -, hexec⟩⟩ := step_cases h
  · obtain rfl : g = f := Option.some.inj hf
    rfl
  · exact (exec_fault h0 hexec hf).1

/-- With no fault latched a step answers a next state. -/
theorem step_next_of_unlatched {s : State} (h0 : s.fault = none) : ∃ t, step s = .next t := by
  cases hw : s.fetch with
  | error f => exact ⟨_, Encoding.step_of_fetch_error h0 hw⟩
  | ok w =>
    cases hi : decode w with
    | none => exact ⟨_, Encoding.step_of_unsupported h0 hw hi⟩
    | some i =>
      rw [Encoding.step_of_executes ⟨h0, w, hw, hi⟩]
      exact everyInstructionAnswersANextState i s

/-- Everything a `tick` transaction can do: it is refused with the latched fault, it raises a fault, or it answers the
step's next state. -/
theorem tick_run_cases (s : State) :
    (∃ f, s.fault = some f ∧ Txn.tick.run s = (s, .faulted f)) ∨
    (∃ f, Txn.tick.run s = (s.takeFault f, .faulted f)) ∨
    (∃ t, step s = .next t ∧ Txn.tick.run s = (t, .ok)) := by
  cases h0 : s.fault with
  | some f => exact .inl ⟨f, rfl, by simp only [Txn.run, tickTxn, Encoding.step_of_faulted h0]⟩
  | none =>
    obtain ⟨t, ht⟩ := step_next_of_unlatched h0
    cases hf : t.fault with
    | none => exact .inr (.inr ⟨t, ht, by simp only [Txn.run, tickTxn, ht, hf]⟩)
    | some f => exact .inr (.inl ⟨f, by simp only [Txn.run, tickTxn, ht, hf, ← step_fault ht hf]⟩)

/-! ### A transaction's answer and the latch -/

/-- Taking the fault that is latched already changes nothing. -/
theorem takeFault_of_latched {s : State} {f : Fault} (h : s.fault = some f) : s.takeFault f = s := by
  unfold State.takeFault
  rw [← h]

/-- An answer whose response is a fault has the state before it with that fault latched. -/
def FaultsOnlyLatch (s : State) (r : State × Response) : Prop := ∀ f, r.2 = .faulted f → r.1 = s.takeFault f

theorem faultsOnlyLatch_raise (s : State) (f : Fault) : FaultsOnlyLatch s (s.takeFault f, .faulted f) := by
  intro g hg
  cases hg
  rfl

theorem faultsOnlyLatch_refusal {s : State} {f : Fault} (h : s.fault = some f) : FaultsOnlyLatch s (s, .faulted f) := by
  intro g hg
  cases hg
  exact (takeFault_of_latched h).symm

/-- A response that is no fault says nothing of the latch. -/
theorem faultsOnlyLatch_of_ne {s : State} {r : State × Response} (h : ∀ f, r.2 ≠ .faulted f) : FaultsOnlyLatch s r :=
  fun f hf => absurd hf (h f)

theorem faultsOnlyLatch_unlessFaulted {s : State} {r : State × Response} (h : FaultsOnlyLatch s r) :
    FaultsOnlyLatch s (s.unlessFaulted r) := by
  cases h0 : s.fault with
  | some f => rw [unlessFaulted_of_faulted h0]; exact faultsOnlyLatch_refusal h0
  | none => rw [unlessFaulted_of_unlatched h0]; exact h

theorem faultsOnlyLatch_load (data : List Byte) (s : State) : FaultsOnlyLatch s ((Txn.load data).run s) := by
  obtain ⟨f, h0, hrun⟩ | ⟨f, hrun⟩ | ⟨-, hrun⟩ := Load.load_run_cases data s <;> rw [hrun]
  · exact faultsOnlyLatch_refusal h0
  · exact faultsOnlyLatch_raise s f
  · exact faultsOnlyLatch_of_ne (fun _ => Response.noConfusion)

theorem faultsOnlyLatch_tick (s : State) : FaultsOnlyLatch s (Txn.tick.run s) := by
  obtain ⟨f, h0, hrun⟩ | ⟨f, hrun⟩ | ⟨t, -, hrun⟩ := tick_run_cases s <;> rw [hrun]
  · exact faultsOnlyLatch_refusal h0
  · exact faultsOnlyLatch_raise s f
  · exact faultsOnlyLatch_of_ne (fun _ => Response.noConfusion)

theorem faultsOnlyLatch_keypress (index : Nat) (pressed : Bool) (s : State) :
    FaultsOnlyLatch s ((Txn.keypress index pressed).run s) := by
  refine faultsOnlyLatch_unlessFaulted ?_
  split
  · exact faultsOnlyLatch_of_ne (fun _ => Response.noConfusion)
  · exact faultsOnlyLatch_raise s _

/-! ### `tick_timers` (R159, R160) -/

theorem tickTimers_run_of_faulted {s : State} {f : Fault} (h : s.fault = some f) :
    Txn.tickTimers.run s = (s, .faulted f) :=
  unlessFaulted_of_faulted h _

theorem tickTimers_run_of_unlatched {s : State} (h0 : s.fault = none) :
    Txn.tickTimers.run s =
      ({ s with delay := countDown s.delay, sound := countDown s.sound }, .soundExpired (s.sound == 1)) :=
  unlessFaulted_of_unlatched h0 _

theorem countDown_toNat (v : Byte) : (countDown v).toNat = v.toNat - 1 := by
  unfold countDown
  split <;> bv_omega

/-- Timers at 0 stay at 0. -/
theorem tickTimers_after_zero {s : State} (hdelay : s.delay = 0) (hsound : s.sound = 0) :
    (Txn.tickTimers.after s).delay = 0 ∧ (Txn.tickTimers.after s).sound = 0 := by
  unfold Txn.after
  cases h0 : s.fault with
  | some f => rw [tickTimers_run_of_faulted h0]; exact ⟨hdelay, hsound⟩
  | none =>
    have hzero : countDown 0 = 0 := rfl
    rw [tickTimers_run_of_unlatched h0, hdelay, hsound, hzero]
    exact ⟨rfl, rfl⟩

/-- Only `tick_timers` tells of the sound, and it says that the sound expired where `ST` is 1. -/
theorem soundExpired_cases {t : Txn} {s : State} {b : Bool} (h : t.response s = .soundExpired b) :
    t = .tickTimers ∧ b = (s.sound == 1) := by
  unfold Txn.response at h
  cases t with
  | reset | getDisplay => cases h
  | load data =>
    obtain ⟨f, -, hrun⟩ | ⟨f, hrun⟩ | ⟨-, hrun⟩ := Load.load_run_cases data s <;> rw [hrun] at h <;> cases h
  | tick =>
    obtain ⟨f, -, hrun⟩ | ⟨f, hrun⟩ | ⟨u, -, hrun⟩ := tick_run_cases s <;> rw [hrun] at h <;> cases h
  | keypress index pressed =>
    simp only [Txn.run, keypressTxn] at h
    cases h0 : s.fault with
    | some f => rw [unlessFaulted_of_faulted h0] at h; cases h
    | none => rw [unlessFaulted_of_unlatched h0] at h; split at h <;> cases h
  | tickTimers =>
    cases h0 : s.fault with
    | some f => rw [tickTimers_run_of_faulted h0] at h; cases h
    | none => rw [tickTimers_run_of_unlatched h0] at h; cases h; exact ⟨rfl, rfl⟩

/-- A state that is `s` with other timers keeps every other part of `s`. -/
theorem unchangedBut_timers {s t : State} (h : t = { s with delay := t.delay, sound := t.sound }) :
    UnchangedBut [.delay, .sound] s t := by
  refine unchangedBut_of_parts fun p => ?_
  rw [h]
  cases p with
  | delay | sound => left; decide
  | regs | ram => exact .inr fun _ => rfl
  | index | pc | stack | sp | keys | display | fault => exact .inr rfl

/-! ### The obligations -/

/-- Settles O5: the refusable transactions are those under `unlessFaulted`, and the tick, whose step ends in the record. -/
theorem refusedWhileAFaultIsLatched : Obligations.RefusedWhileAFaultIsLatched := by
  unfold Obligations.RefusedWhileAFaultIsLatched
  refine fun s f hf => ⟨fun t hrefusable => ?_, rfl, rfl⟩
  cases t with
  | reset | getDisplay => cases hrefusable
  | load | tickTimers | keypress => exact unlessFaulted_of_faulted hf _
  | tick => simp only [Txn.run, tickTxn, Encoding.step_of_faulted hf]

/-- Settles O6: a fault is the response of a refusal, or of the entry into it. -/
theorem faultsChangeOnlyTheLatch : Obligations.FaultsChangeOnlyTheLatch := by
  unfold Obligations.FaultsChangeOnlyTheLatch
  intro t s
  cases t with
  | reset | getDisplay => exact faultsOnlyLatch_of_ne (fun _ => Response.noConfusion)
  | load data => exact faultsOnlyLatch_load data s
  | tick => exact faultsOnlyLatch_tick s
  | tickTimers => exact faultsOnlyLatch_unlessFaulted (faultsOnlyLatch_of_ne fun _ => Response.noConfusion)
  | keypress index pressed => exact faultsOnlyLatch_keypress index pressed s

/-- Settles O7: `exec_cases` holds each instruction's fault to the table. -/
theorem eachInstructionRaisesOnlyItsFaults : Obligations.EachInstructionRaisesOnlyItsFaults := by
  unfold Obligations.EachInstructionRaisesOnlyItsFaults
  exact fun i s t f h0 hexec hf => (exec_fault h0 hexec hf).2

/-- Settles O56: both timers go through `countDown`. -/
theorem tickTimersCountsDown : Obligations.TickTimersCountsDown := by
  unfold Obligations.TickTimersCountsDown
  intro s h0
  have hexpired : (s.sound == 1) = decide (s.sound.toNat = 1) := decide_eq_decide.mpr BitVec.toNat_inj.symm
  rw [tickTimers_run_of_unlatched h0, hexpired]
  exact ⟨_, rfl, countDown_toNat s.delay, countDown_toNat s.sound, unchangedBut_timers rfl⟩

/-- Settles O17: a timer at 0 counts down to 0, no other transaction but reset writes the timers, and `ST` is not 1. -/
theorem timersAtZeroStayAtZero : Obligations.TimersAtZeroStayAtZero := by
  unfold Obligations.TimersAtZeroStayAtZero
  intro t s hdelay hsound
  have hsilent : t.response s ≠ .soundExpired true := fun h => by
    obtain ⟨-, hone⟩ := soundExpired_cases h
    rw [hsound] at hone
    cases hone
  have hkept (htimers : t ≠ .tickTimers) (hreset : t ≠ .reset) : (t.after s).delay = 0 ∧ (t.after s).sound = 0 := by
    obtain ⟨hsameDelay, hsameSound⟩ := HostInputs.timersAreTouchedOnlyByTickTimers.1 t s htimers hreset
    exact ⟨hsameDelay.trans hdelay, hsameSound.trans hsound⟩
  suffices h : (t.after s).delay = 0 ∧ (t.after s).sound = 0 from ⟨h.1, h.2, hsilent⟩
  cases t with
  | reset => exact ⟨rfl, rfl⟩
  | load | tick | keypress | getDisplay => exact hkept (by simp) (by simp)
  | tickTimers => exact tickTimers_after_zero hdelay hsound

end Sys2Proof.Proofs.FaultEntry
end

/-! ## Logic and the flag writers (41_alu.md R104 to R108)

ADD and SUB write the flag, then one register computed from the file as it then stands: what such a pair of writes changes,
and what an operand reads in between, is said once for both. -/

section
namespace Sys2Proof.Proofs.AluFlags

open Sys2Proof.Machine Sys2Proof.Safety

/-! ### A flag, then a register -/

theorem flagByte_toNat (p : Prop) [Decidable p] : (flagByte (decide p)).toNat = if p then 1 else 0 := by
  unfold flagByte
  by_cases hp : p <;> simp [hp]

/-- After the flag `c` is written, an operand that is `VF` reads as `c`, and any other as before (decision D5). -/
theorem setFlag_operand (s : State) (c : Byte) (r : Reg) :
    ((s.advance.setFlag c).reg r).toNat = if r = 15 then c.toNat else (s.reg r).toNat := by
  rw [State.setFlag_reg, apply_ite BitVec.toNat, State.advance_reg]

/-- What the flag, then `v` in `V[x]`, change and keep: `c` is the flag's number and `n` that of `v`. -/
theorem setFlag_setReg_spec (s : State) (x : Reg) {flag v : Byte} {c n : Nat} (hc : flag.toNat = c) (hn : v.toNat = n) :
    (x ≠ 15 → (((s.advance.setFlag flag).setReg x v).reg 15).toNat = c) ∧
    (((s.advance.setFlag flag).setReg x v).reg x).toNat = n ∧
    (∀ r, r ≠ x → r ≠ 15 → ((s.advance.setFlag flag).setReg x v).reg r = s.reg r) ∧
    ((s.advance.setFlag flag).setReg x v).pc = s.pc + 2 ∧
    UnchangedBut [.pc, .regs] s ((s.advance.setFlag flag).setReg x v) := by
  refine ⟨fun hx => ?_, ?_, fun r hrx hr => ?_, rfl, Alu.unchangedBut_registers rfl⟩
  · rw [State.setReg_reg, if_neg hx.symm, State.setFlag_reg_self, hc]
  · rw [State.setReg_reg_self, hn]
  · rw [State.setReg_reg, if_neg hrx, State.setFlag_reg, if_neg hr, State.advance_reg]

/-! ### The obligations -/

/-- Settles O34: each writes its bitwise result, with no flag before it. -/
theorem logicWritesOnlyTheDestination : Obligations.LogicWritesOnlyTheDestination := by
  unfold Obligations.LogicWritesOnlyTheDestination
  intro x y s
  rw [← BitVec.toNat_or, ← BitVec.toNat_and, ← BitVec.toNat_xor]
  exact ⟨⟨_, rfl, Alu.writesReg_setReg s x (s.reg x ||| s.reg y)⟩,
    ⟨_, rfl, Alu.writesReg_setReg s x (s.reg x &&& s.reg y)⟩,
    ⟨_, rfl, Alu.writesReg_setReg s x (s.reg x ^^^ s.reg y)⟩⟩

/-- Settles O35: the carry of the operands as they stood before, then the sum of the operands as they stand after it. -/
theorem addRegWritesCarryThenSum : Obligations.AddRegWritesCarryThenSum := by
  unfold Obligations.AddRegWritesCarryThenSum
  intro x y s c hc
  have hcarry : (carryFlag (s.reg x) (s.reg y)).toNat = c := hc ▸ flagByte_toNat _
  refine ⟨_, rfl, setFlag_setReg_spec s x hcarry ?_⟩
  rw [BitVec.toNat_add, setFlag_operand, setFlag_operand, hcarry]

/-- Settles O36: the no-borrow flag of the operands as they stood before, then the difference of the operands as they stand
after it. -/
theorem subWritesNoBorrowThenDifference : Obligations.SubWritesNoBorrowThenDifference := by
  unfold Obligations.SubWritesNoBorrowThenDifference
  intro x y s c hc
  have hnoBorrow : (noBorrowFlag (s.reg x) (s.reg y)).toNat = c := hc ▸ flagByte_toNat _
  have hsub (a b : Byte) : (a - b).toNat = (a.toNat + 256 - b.toNat) % 256 := by bv_omega
  refine ⟨_, rfl, setFlag_setReg_spec s x hnoBorrow ?_⟩
  rw [hsub, setFlag_operand, setFlag_operand, hnoBorrow]

end Sys2Proof.Proofs.AluFlags
end

/-! ## ADD I and memory transfer (42_index_memory.md R121, R123, R124; 20_memory.md R48)

`Fx55` and `Fx65` end in `commit` of a walk over the registers, of which `storeRegs_ok`, `storeRegs_error`, `loadRegs_ok` and
`loadRegs_error` say everything; here these laws are read for the walk from register 0 of the advanced state. -/

section
namespace Sys2Proof.Proofs.Transfer

open Sys2Proof.Machine Sys2Proof.Safety

/-! ### ADD I (R121) -/

theorem exec_addI_of_fits {x : Reg} {s : State} (h : s.index.toNat + (s.reg x).toNat ≤ 0xFFFF) :
    exec (.addI x) s = .next (s.advance.setIndex (BitVec.ofNat 16 (s.index.toNat + (s.reg x).toNat))) := by
  simp only [exec, execAddI, if_neg (Nat.not_lt.mpr h), State.commit_ok]

theorem exec_addI_of_overflow {x : Reg} {s : State} (h : 0xFFFF < s.index.toNat + (s.reg x).toNat) :
    exec (.addI x) s = .next (s.takeFault (.arithmeticOverflow s.index (s.reg x))) := by
  simp only [exec, execAddI, if_pos h, State.commit_error]

/-- Settles O38: the sum that fits its word is written whole. -/
theorem addIAddsOrOverflows : Obligations.AddIAddsOrOverflows := by
  unfold Obligations.AddIAddsOrOverflows
  refine fun x s => ⟨fun hfits => ⟨_, exec_addI_of_fits hfits, ?_⟩, exec_addI_of_overflow⟩
  have hexact : (BitVec.ofNat 16 (s.index.toNat + (s.reg x).toNat)).toNat = s.index.toNat + (s.reg x).toNat :=
    (BitVec.toNat_ofNat _ _).trans (Nat.mod_eq_of_lt (Nat.lt_succ_of_le hfits))
  have hwrites := IndexMemory.writesIndex_setIndex s (BitVec.ofNat 16 (s.index.toNat + (s.reg x).toNat))
  rwa [hexact] at hwrites

/-! ### `Fx55` (R123) -/

/-- Where every address may be stored to, `Fx55` stores the registers below `x` there, and moves `PC`. -/
theorem exec_ldStore_of_storable {x : Reg} {s : State} (h : s.storable 0 x.val) :
    ∃ t, exec (.ldStore x) s = .next t ∧ t = { s with pc := s.pc + 2, mem := t.mem } ∧
      (∀ r : Reg, r.val < x.val → t.byte (s.effAddr r.val) = s.reg r) ∧
      (∀ a, (∀ i, i < x.val → a ≠ s.effAddr i) → t.byte a = s.byte a) := by
  obtain ⟨t, hok, hframe, hstored, hothers, -⟩ := State.storeRegs_ok x.val s.advance 0 h
  refine ⟨t, congrArg s.commit hok, hframe, fun r hr => ?_, fun a ha => hothers a fun j _ hj => ha j (by omega)⟩
  exact (hstored r.val (Nat.zero_le _) (by omega)).trans (congrArg s.reg (regNumber_val r))

/-- Addresses from register 0 on, as the obligations list them. -/
theorem storable_of_forall {s : State} {n : Nat} (h : ∀ i, i < n → 80 ≤ s.effAddr i ∧ s.effAddr i < 4096) :
    s.storable 0 n :=
  fun j _ hj => h j (by omega)

/-- Settles O40: the walk stores every register. -/
theorem ldStoreStoresTheRegistersBelowX : Obligations.LdStoreStoresTheRegistersBelowX := by
  unfold Obligations.LdStoreStoresTheRegistersBelowX
  intro x s h
  obtain ⟨t, hexec, hframe, hstored, hothers⟩ := exec_ldStore_of_storable (storable_of_forall h)
  have hpc : t.pc = s.pc + 2 := by rw [hframe]
  have hkept : UnchangedBut [.ram, .pc] s t := Load.unchangedBut_ramPc (by rw [hframe])
  exact ⟨t, hexec, hstored, hothers, hpc, Load.unchangedBut_mono (by decide) hkept⟩

/-- Settles O41: the walk raises at its first bad address, and `commit` undoes it. -/
theorem ldStoreFaultsAtTheFirstBadAddress : Obligations.LdStoreFaultsAtTheFirstBadAddress := by
  unfold Obligations.LdStoreFaultsAtTheFirstBadAddress
  intro x s i hi h
  have hbefore : s.advance.storable 0 (i - 0) := storable_of_forall h
  obtain ⟨hbound, hfont⟩ := State.storeRegs_error x.val s.advance 0 i (Nat.zero_le i) (by omega) hbefore
  exact ⟨fun hout => congrArg s.commit (hbound hout), fun hlow => congrArg s.commit (hfont hlow)⟩

/-! ### `Fx65` (R124) -/

theorem loadable_of_forall {s : State} {n : Nat} (h : ∀ i, i < n → s.effAddr i < 4096) : s.loadable 0 n :=
  fun j _ hj => h j (by omega)

/-- Settles O42: the walk loads every register. -/
theorem ldLoadLoadsTheRegistersBelowX : Obligations.LdLoadLoadsTheRegistersBelowX := by
  unfold Obligations.LdLoadLoadsTheRegistersBelowX
  intro x s h
  obtain ⟨t, hok, hframe, hloaded, hothers⟩ :=
    State.loadRegs_ok x.val s.advance 0 (by omega) (loadable_of_forall h)
  have hpc : t.pc = s.pc + 2 := by rw [hframe]; rfl
  exact ⟨t, congrArg s.commit hok, fun r hr => hloaded r (Nat.zero_le _) (by omega),
    fun r hr => hothers r (.inr (by omega)), hpc, Alu.unchangedBut_registers (by rw [hframe]; rfl)⟩

/-- Settles O43: the walk raises at its first address outside RAM, and `commit` undoes it. -/
theorem ldLoadFaultsAtTheFirstBadAddress : Obligations.LdLoadFaultsAtTheFirstBadAddress := by
  unfold Obligations.LdLoadFaultsAtTheFirstBadAddress
  intro x s i hi h hout
  have hbefore : s.advance.loadable 0 (i - 0) := loadable_of_forall h
  exact congrArg s.commit (State.loadRegs_error x.val s.advance 0 i (Nat.zero_le i) (by omega) hbefore hout)

/-! ### What was stored is read back -/

/-- A store inside RAM answers one state, so whatever it answers has the bytes stored and nothing else changed. -/
theorem ldStore_answer {x : Reg} {s t : State} (h : s.storable 0 x.val) (hexec : exec (.ldStore x) s = .next t) :
    t = { s with pc := s.pc + 2, mem := t.mem } ∧ ∀ r : Reg, r.val < x.val → t.byte (s.effAddr r.val) = s.reg r := by
  obtain ⟨u, hu, hframe, hstored, -⟩ := exec_ldStore_of_storable h
  obtain rfl : u = t := Host.Outcome.next.inj (hu.symm.trans hexec)
  exact ⟨hframe, hstored⟩

/-- Settles O44: the load reads from the same addresses the bytes stored there. -/
theorem storeThenLoadRestoresTheRegisters : Obligations.StoreThenLoadRestoresTheRegisters := by
  unfold Obligations.StoreThenLoadRestoresTheRegisters
  intro x s t u h hexec hindex hram
  obtain ⟨hframe, hstored⟩ := ldStore_answer (storable_of_forall h) hexec
  have heff (i : Nat) : u.effAddr i = s.effAddr i := by
    unfold State.effAddr
    rw [hindex, hframe]
  obtain ⟨v, hload, hloaded, -⟩ := ldLoadLoadsTheRegistersBelowX x u fun i hi => heff i ▸ (h i hi).2
  exact ⟨v, hload, fun r hr => by rw [hloaded r hr, heff, hram, hstored r hr]⟩

/-- Settles O45: the fetch at `I` reads the two bytes stored there, and no fault was latched by storing them. -/
theorem storedWordIsExecuted : Obligations.StoredWordIsExecuted := by
  unfold Obligations.StoredWordIsExecuted
  intro x s t i h0 hx h hexec hdecode
  obtain ⟨hframe, hstored⟩ := ldStore_answer (storable_of_forall h) hexec
  have hfault : (t.setPc s.index).fault = none := by rw [State.setPc_fault, hframe]; exact h0
  have hhigh : t.byte s.index.toNat = s.reg 0 := hstored 0 (by change 0 < x.val; omega)
  have hlow : t.byte (s.index.toNat + 1) = s.reg 1 := hstored 1 (by change 1 < x.val; omega)
  have hinside : s.index.toNat + 2 ≤ 4096 := (h 1 hx).2
  have hfetch : (t.setPc s.index).fetch = .ok (s.reg 0 ++ s.reg 1) := by
    rw [State.fetch_eq, State.setPc_pc, if_pos hinside, State.setPc_byte, State.setPc_byte, hhigh, hlow]
  exact Encoding.step_of_executes ⟨hfault, _, hfetch, hdecode⟩

end Sys2Proof.Proofs.Transfer
end

/-! ## Drawing (43_display.md R141; 20_memory.md R42)

`Dxyn` ends in `commit` of its rows, of which `drawRows_ok` and `drawRows_error` say everything; here they are read for the
rows from row 0 of the advanced state. -/

section
namespace Sys2Proof.Proofs.Drawing

open Sys2Proof.Machine Sys2Proof.Safety

/-- A state that is `s` with another `PC`, register file and display keeps every other part of `s`. -/
theorem unchangedBut_drawing {s t : State} (h : t = { s with pc := t.pc, regs := t.regs, display := t.display }) :
    UnchangedBut [.pc, .regs, .display] s t := by
  refine unchangedBut_of_parts fun p => ?_
  rw [h]
  cases p with
  | pc | regs | display => left; decide
  | ram => exact .inr fun _ => rfl
  | index | stack | sp | delay | sound | keys | fault => exact .inr rfl

/-- Rows from row 0 on, as the obligations list them. -/
theorem drawable_of_forall {s : State} {base n : Nat} (h : ∀ r, r < n → s.effAddr r < 4096 ∧ base + r < 2048) :
    s.drawable base 0 n :=
  fun r _ hr => h r (by omega)

/-- Settles O48: the rows toggle their pixels, from the coordinates read before row 0. -/
theorem drwTogglesByByteEquality : Obligations.DrwTogglesByByteEquality := by
  unfold Obligations.DrwTogglesByByteEquality
  intro x y n s h
  obtain ⟨t, hok, hframe, htoggled, hothers, hnone, hlast, hregs⟩ :=
    State.drawRows_ok (pixelBase (s.reg x) (s.reg y)) n s.advance 0 (drawable_of_forall h)
  have hpc : t.pc = s.pc + 2 := by rw [hframe]; rfl
  simp only [Nat.zero_add] at htoggled hothers hlast
  exact ⟨t, congrArg s.commit hok, fun r hr => htoggled r (Nat.zero_le r) hr,
    fun p hp => hothers p fun r _ hr => hp r hr, hnone, hlast, hregs, hpc, unchangedBut_drawing (by rw [hframe]; rfl)⟩

/-- Settles O49: the rows raise at the first bad one, RAM before the display, and `commit` undoes them. -/
theorem drwFaultsAtTheFirstBadRow : Obligations.DrwFaultsAtTheFirstBadRow := by
  unfold Obligations.DrwFaultsAtTheFirstBadRow
  intro x y n s r hr h
  have hbefore : s.advance.drawable (pixelBase (s.reg x) (s.reg y)) 0 (r - 0) := drawable_of_forall h
  obtain ⟨hram, hdisplay⟩ := State.drawRows_error _ n s.advance 0 r (Nat.zero_le r) (by omega) hbefore
  exact ⟨fun hout => congrArg s.commit (hram hout), fun hin hout => congrArg s.commit (hdisplay hin hout)⟩

/-! ### Glyphs of the default table (R42) -/

/-- Settles O2: the table is evaluated. -/
theorem defaultFontTable : Obligations.DefaultFontTable := by
  unfold Obligations.DefaultFontTable
  decide

/-- The bytes of a glyph stand in the font table, so none of them is 0xFF. -/
theorem glyph_byte_ne {s : State} (hfont : ∀ a, a < 80 → s.byte a = fontByte a) {d r : Nat} (hd : d < 16)
    (hindex : s.index.toNat = 5 * d) (hr : r < 5) : s.byte (s.effAddr r) ≠ 0xFF := by
  obtain ⟨-, hnone, -⟩ := defaultFontTable
  have hin : s.effAddr r < 80 := by unfold State.effAddr; omega
  rw [hfont _ hin]
  exact hnone _ hin

/-- Settles O50: no row of a glyph is 0xFF, so no row toggles its pixel, and the last row leaves `VF` at 0. -/
theorem drawingAGlyphChangesNoPixel : Obligations.DrawingAGlyphChangesNoPixel := by
  unfold Obligations.DrawingAGlyphChangesNoPixel
  intro x y n d s hfont hd hindex hn1 hn5 hinside
  have hplain (r : Nat) (hr : r < n) : s.byte (s.effAddr r) ≠ 0xFF := glyph_byte_ne hfont hd hindex (by omega)
  obtain ⟨t, hexec, htoggled, hothers, -, hlast, -⟩ := drwTogglesByByteEquality x y n s fun r hr =>
    ⟨by unfold State.effAddr; omega, by omega⟩
  refine ⟨t, hexec, fun p => ?_, ?_⟩
  · by_cases hdrawn : ∃ r, r < n ∧ p = 64 * (s.reg y).toNat + (s.reg x).toNat + r
    · obtain ⟨r, hr, rfl⟩ := hdrawn
      rw [htoggled r hr, if_neg (hplain r hr)]
    · exact hothers p fun r hr hp => hdrawn ⟨r, hr, hp⟩
  · rw [hlast (n - 1) (by omega), if_neg fun hboth => hplain (n - 1) (by omega) hboth.1]

end Sys2Proof.Proofs.Drawing
end

/-! ## What a step can change (10_state.md R21, R25; 20_memory.md R43; 70_reset_and_hazards.md R184)

A changed element names the instruction. Of RAM and the stack `exec_cases` says so; for `VF`, each instruction that writes
neither a flag nor a destination register keeps it. -/

section
namespace Sys2Proof.Proofs.StepFrames

open Sys2Proof.Machine Sys2Proof.Safety

/-! ### RAM -/

/-- Everything a tick can do to a byte: nothing, unless it executes `Fx55` and the byte is one it stores to. -/
theorem tick_after_byte_cases (s : State) (a : Nat) :
    (Txn.tick.after s).byte a = s.byte a ∨
    ∃ x : Reg, Executes s (.ldStore x) ∧ 80 ≤ a ∧ ∃ i, i < x.val ∧ a = s.effAddr i := by
  rcases tick_after_cases s with hsame | hstep
  · exact .inl (by rw [hsame])
  obtain ⟨-, ⟨f, hfault⟩ | ⟨i, hexecutes, hexec⟩⟩ := step_cases hstep
  · exact .inl (by rw [hfault, State.takeFault_byte])
  obtain ⟨f, hfault, -⟩ | hchanges := exec_cases hexec
  · exact .inl (by rw [hfault, State.takeFault_byte])
  obtain hmem | ⟨x, rfl, hstorable, hothers, -⟩ := hchanges.ram
  · exact .inl (by simp only [State.byte, hmem])
  by_cases hstored : ∃ j, j < x.val ∧ a = s.effAddr j
  · obtain ⟨j, hj, rfl⟩ := hstored
    exact .inr ⟨x, hexecutes, (hstorable j (Nat.zero_le j) (by omega)).1, j, hj, rfl⟩
  · exact .inl (hothers a fun j hj ha => hstored ⟨j, hj, ha⟩)

/-- Everything `load` can do to a byte: nothing, unless it is among those placed. -/
theorem load_after_byte_cases (data : List Byte) (s : State) (a : Nat) :
    ((Txn.load data).after s).byte a = s.byte a ∨ (0x200 ≤ a ∧ a < 0x200 + data.length) := by
  unfold Txn.after
  obtain ⟨f, -, hrun⟩ | ⟨f, hrun⟩ | ⟨hlen, hrun⟩ := Load.load_run_cases data s <;> rw [hrun]
  · exact .inl rfl
  · exact .inl (s.takeFault_byte f a)
  · obtain ⟨-, -, hothers, -⟩ := State.pokeAll_spec data s 0x200 (by omega)
    by_cases hplaced : 0x200 ≤ a ∧ a < 0x200 + data.length
    · exact .inr hplaced
    · exact .inl (hothers a (by omega))

theorem unlessFaulted_byte {s : State} {r : State × Response} {a : Nat} (h : r.1.byte a = s.byte a) :
    (s.unlessFaulted r).1.byte a = s.byte a := by
  rcases HostInputs.unlessFaulted_cases s r with hr | hr <;> rw [hr]
  exact h

theorem tickTimers_after_byte (s : State) (a : Nat) : (Txn.tickTimers.after s).byte a = s.byte a :=
  unlessFaulted_byte rfl

theorem keypress_after_byte (index : Nat) (pressed : Bool) (s : State) (a : Nat) :
    ((Txn.keypress index pressed).after s).byte a = s.byte a := by
  refine unlessFaulted_byte ?_
  split <;> rfl

/-- Settles O20: transaction by transaction, what it can do to the byte. -/
theorem ramChangesOnlyByStoreLoadReset : Obligations.RamChangesOnlyByStoreLoadReset := by
  unfold Obligations.RamChangesOnlyByStoreLoadReset
  intro t s a hchanged
  cases t with
  | reset => exact .inl rfl
  | load data => exact .inr (.inl ⟨data, rfl, (load_after_byte_cases data s a).resolve_left hchanged⟩)
  | tick => exact .inr (.inr ⟨rfl, (tick_after_byte_cases s a).resolve_left hchanged⟩)
  | tickTimers => exact absurd (tickTimers_after_byte s a) hchanged
  | keypress index pressed => exact absurd (keypress_after_byte index pressed s a) hchanged
  | getDisplay => exact absurd rfl hchanged

/-! ### The stack -/

/-- Settles O21: of the three ways an instruction leaves the stack, only a call writes a slot, and only a call and a return
move `SP`. -/
theorem stackChangesOnlyByCallAndReturn : Obligations.StackChangesOnlyByCallAndReturn := by
  unfold Obligations.StackChangesOnlyByCallAndReturn
  intro s t hstep
  obtain ⟨-, ⟨f, rfl⟩ | ⟨i, hexecutes, hexec⟩⟩ := step_cases hstep
  · exact ⟨absurd rfl, absurd rfl⟩
  obtain ⟨f, rfl, -⟩ | hchanges := exec_cases hexec
  · exact ⟨absurd rfl, absurd rfl⟩
  obtain ⟨hstack, hsp, -⟩ | ⟨rfl, hstack, -⟩ | ⟨nnn, rfl, -⟩ := hchanges.control
  · exact ⟨absurd hstack, absurd hsp⟩
  · exact ⟨absurd hstack, fun _ => .inl hexecutes⟩
  · exact ⟨fun _ => ⟨nnn, hexecutes⟩, fun _ => .inr ⟨nnn, hexecutes⟩⟩

/-! ### `VF` -/

/-- A write to `V[x]` changes `VF` only where `x` is 15. -/
theorem eq_vf_of_setReg {s : State} {x : Reg} {v : Byte} (h : (s.advance.setReg x v).reg 15 ≠ s.reg 15) : x = 15 := by
  by_contra hx
  exact h ((s.advance.setReg_reg x 15 v).trans (if_neg (Ne.symm hx)))

theorem skipIf_reg (s : State) (c : Bool) (r : Reg) : (s.advance.skipIf c).reg r = s.reg r := by
  rw [State.skipIf_eq]; rfl

theorem ret_keeps_reg {s t : State} (h : exec .ret s = .next t) (r : Reg) : t.reg r = s.reg r := by
  rcases Nat.eq_zero_or_pos s.sp.val with hempty | hpos
  · rw [ControlFlow.exec_ret_of_empty hempty] at h; cases h; rfl
  · rw [ControlFlow.exec_ret_of_pos hpos] at h; cases h; rfl

theorem call_keeps_reg {nnn : Addr} {s t : State} (h : exec (.call nnn) s = .next t) (r : Reg) : t.reg r = s.reg r := by
  obtain ⟨hfull, hroom⟩ := s.advance.push_spec (s.pc + 2)
  rcases Nat.lt_or_eq_of_le (Nat.le_of_lt_succ s.sp.isLt) with hlt | heq
  · obtain ⟨u, hpush, hframe, -⟩ := hroom hlt
    rw [ControlFlow.exec_call_of_push nnn hpush] at h; cases h
    rw [State.setPc_reg, hframe]; rfl
  · rw [ControlFlow.exec_call_of_push_error nnn (hfull heq)] at h; cases h; rfl

theorem addI_keeps_reg {x : Reg} {s t : State} (h : exec (.addI x) s = .next t) (r : Reg) : t.reg r = s.reg r := by
  rcases Nat.lt_or_ge 0xFFFF (s.index.toNat + (s.reg x).toNat) with hover | hfits
  · rw [Transfer.exec_addI_of_overflow hover] at h; cases h; rfl
  · rw [Transfer.exec_addI_of_fits hfits] at h; cases h; rfl

theorem ldStore_keeps_reg {x : Reg} {s t : State} (h : exec (.ldStore x) s = .next t) (r : Reg) :
    t.reg r = s.reg r := by
  rcases s.storeRegs_cases x.val 0 with hstorable | ⟨k, -, hk, hbefore, hbad⟩
  · obtain ⟨hframe, -⟩ := Transfer.ldStore_answer hstorable h
    rw [hframe]; rfl
  · obtain ⟨hbound, hfont⟩ := Transfer.ldStoreFaultsAtTheFirstBadAddress x s k (by omega)
      fun j hj => hbefore j (Nat.zero_le j) (by omega)
    rcases hbad with hout | hlow
    · cases (hbound hout).symm.trans h; rfl
    · cases (hfont hlow).symm.trans h; rfl

/-- `Fx65` loads at most V0 to VE: `VF` is never below `x` (R124). -/
theorem ldLoad_keeps_vf {x : Reg} {s t : State} (h : exec (.ldLoad x) s = .next t) : t.reg 15 = s.reg 15 := by
  rcases s.loadRegs_cases x.val 0 with hloadable | ⟨k, -, hk, hbefore, hout⟩
  · obtain ⟨u, hu, -, habove, -⟩ := Transfer.ldLoadLoadsTheRegistersBelowX x s
      fun j hj => hloadable j (Nat.zero_le j) (by omega)
    cases hu.symm.trans h
    exact habove 15 (Nat.le_of_lt_succ x.isLt)
  · have hfault := Transfer.ldLoadFaultsAtTheFirstBadAddress x s k (by omega)
      (fun j hj => hbefore j (Nat.zero_le j) (by omega)) hout
    cases hfault.symm.trans h; rfl

/-- Settles O22: a register writer changes `VF` as its destination; what is neither one nor a flag writer keeps it. -/
theorem vfChangesOnlyByFlagWritersAndAsDestination : Obligations.VfChangesOnlyByFlagWritersAndAsDestination := by
  unfold Obligations.VfChangesOnlyByFlagWritersAndAsDestination
  intro i s t hexec hchanged
  cases i with
  | addReg x y => exact .inl ⟨x, y, rfl⟩
  | sub x y => exact .inr (.inl ⟨x, y, rfl⟩)
  | drw x y n => exact .inr (.inr (.inl ⟨x, y, n, rfl⟩))
  | ldImm x kk =>
    cases hexec; obtain rfl := eq_vf_of_setReg hchanged
    exact .inr (.inr (.inr (.inl ⟨kk, rfl⟩)))
  | addImm x kk =>
    cases hexec; obtain rfl := eq_vf_of_setReg hchanged
    exact .inr (.inr (.inr (.inr (.inl ⟨kk, rfl⟩))))
  | ldReg x y | or x y | and x y | xor x y =>
    cases hexec; obtain rfl := eq_vf_of_setReg hchanged
    exact .inr (.inr (.inr (.inr (.inr ⟨y, by simp⟩))))
  | nop | cls | jp | ldI | ldF => cases hexec; exact absurd rfl hchanged
  | seImm | sneImm | seReg => cases hexec; exact absurd (skipIf_reg s _ 15) hchanged
  | ret => exact absurd (ret_keeps_reg hexec 15) hchanged
  | call => exact absurd (call_keeps_reg hexec 15) hchanged
  | addI => exact absurd (addI_keeps_reg hexec 15) hchanged
  | ldStore => exact absurd (ldStore_keeps_reg hexec 15) hchanged
  | ldLoad => exact absurd (ldLoad_keeps_vf hexec) hchanged

/-! ### A jump to its own address (R83) -/

/-- Settles O26: the fetched word is the jump's, and the jump sets `PC` to the value it has. -/
theorem jumpToSelfLeavesTheStateUnchanged : Obligations.JumpToSelfLeavesTheStateUnchanged := by
  unfold Obligations.JumpToSelfLeavesTheStateUnchanged
  intro s nnn h0 hpc hfetch
  obtain ⟨hdecode, -, hself⟩ := ControlFlow.jpSetsPc nnn
  have hword : (0x1000 + nnn.setWidth 16 : Word) = BitVec.ofNat 16 (0x1000 + nnn.toNat) := by bv_omega
  have hat : s.pc.toNat = nnn.toNat := by rw [hpc]; exact zextAddr_toNat nnn
  rw [hword] at hfetch
  rw [Encoding.step_of_executes ⟨h0, _, hfetch, hdecode⟩, hself s hat]

end Sys2Proof.Proofs.StepFrames
end
